-- ==== Sys2Proof/Word.lean ====
section
/-! DEFINITION. The two machine words of the spec: a byte (`u8`) and a 32-bit instruction field (`u32`), R15 and R17.
Stack entries are no words: they are exact integers (R12), Lean's `Int`. -/

namespace Sys2Proof

/-- `u8`: a cell of code or data memory (R17). Bit 0 is the least significant bit (R15). -/
abbrev Byte := BitVec 8

/-- `u32`: the operand field `imm32` of `load` and `write` (R80, R84). -/
abbrev Word := BitVec 32

end Sys2Proof
end

