-- ==== Sys2Proof/Machine/Flags.lean ====
section
/-! DEFINITION. The machine has no flags (R42): `SGN` pushes a sign instead of setting one. Here is that sign (R156). -/

namespace Sys2Proof.Machine

/-- `sext_8(b)`: the two's-complement reading of a single byte (R17). -/
def sext8 (b : Byte) : Int := if b.toNat < 128 then (b.toNat : Int) else (b.toNat : Int) - 256

/-- `sign(v)`: +1, -1 or 0 (R156). -/
def signOf (v : Int) : Int := if v > 0 then 1 else if v < 0 then -1 else 0

end Sys2Proof.Machine
end

