-- ==== Sys2Proof/Machine/Operands.lean ====
section
/-! DEFINITION. Every operand form: the three addressing modes (R161), the value a constant pushes, and the byte a store
writes. All sums are exact integers (R158). -/

namespace Sys2Proof.Machine

/-- `zext` of `imm32` (R84, R150): the unsigned value, never sign-extended. -/
def constantValue (imm32 : Word) : Int := (imm32.toNat : Int)

/-- `offset & 0x3F` (R85, R152): bits 7:6 are ignored. -/
def effectiveOffset (off8 : Byte) : Nat := (off8 &&& 0x3F#8).toNat

/-- `READ_MEM`: stack base plus a 6-bit offset, as an exact sum (R152, R153). -/
def baseOffsetAddress (base : Int) (off8 : Byte) : Int := base + (effectiveOffset off8 : Int)

/-- `WRITE_MEM`: the absolute address in the instruction (R154, R161). -/
def absoluteAddress (imm32 : Word) : Int := (imm32.toNat : Int)

/-- `SGN`: the popped value itself, no offset (R156, R161). -/
def stackAddress (top : Int) : Int := top

/-- `zext` of a data byte (R152): 0 to 255. -/
def byteValue (b : Byte) : Int := (b.toNat : Int)

/-- The byte a store writes: `value mod 256`, Euclidean, so -1 stores 0xFF (R17, R155). -/
def storedByte (value : Int) : Byte := BitVec.ofNat 8 (value % 256).toNat

end Sys2Proof.Machine
end

