-- ==== Sys2Proof/Syntax.lean ====
section
/-! DEFINITION. The four instructions (R2, R83), with the operands as decoding gives them (R89). -/

namespace Sys2Proof

/-- One constructor per row of the opcode map (R83). The interpreter's names stand in the docstrings (R2). -/
inductive Instr where
  /-- `LOAD_CONST(value)`: `value` is the field `imm32` (R84). -/
  | load (value : Word)
  /-- `READ_MEM(offset)`: the raw byte `off8`, its two reserved bits included (R85). -/
  | read (off8 : Byte)
  /-- `WRITE_MEM(address)`: `address` is the field `imm32` (R84). -/
  | write (address : Word)
  /-- `SGN`: no operand. -/
  | sgn
deriving DecidableEq, Repr

end Sys2Proof
end

