-- ==== Sys2Proof/Decode.lean ====
section
/-! DEFINITION. The opcode map, the decoder (R80 to R91) and the byte layout of an instruction. The encoder block, with its
validation of symbolic instructions, is built over this layout in Machine/Encoder.lean. -/

namespace Sys2Proof

/-! ### The opcode map (R82, R83) -/

/-- `load`, 74. -/
def opLoad : Byte := 0x4A#8
/-- `read`, 135. -/
def opRead : Byte := 0x87#8
/-- `write`, 213. -/
def opWrite : Byte := 0xD5#8
/-- `sgn`, 154. -/
def opSgn : Byte := 0x9A#8

/-- The opcode byte of an instruction (R83). -/
def Instr.opcode : Instr → Byte
  | .load _ => opLoad
  | .read _ => opRead
  | .write _ => opWrite
  | .sgn => opSgn

/-- The name the interpreter side gives an instruction (R2, R83). -/
def Instr.interpreterName : Instr → String
  | .load _ => "LOAD_CONST"
  | .read _ => "READ_MEM"
  | .write _ => "WRITE_MEM"
  | .sgn => "SGN"

/-- `encoded_size` (R109): a function of the opcode byte alone, `none` for a byte that is no opcode. -/
def encodedSize (op : Byte) : Option Nat :=
  if op = opLoad then some 5
  else if op = opRead then some 2
  else if op = opWrite then some 5
  else if op = opSgn then some 1
  else none

/-- The size of an instruction in bytes (R82). -/
def Instr.size : Instr → Nat
  | .load _ => 5
  | .read _ => 2
  | .write _ => 5
  | .sgn => 1

/-! ### Operand assembly (R16, R84) -/

/-- `le32(b0, b1, b2, b3)`: four bytes, the least significant first (R16). -/
def le32 (b0 b1 b2 b3 : Byte) : Word :=
  BitVec.ofNat 32 (b0.toNat + 256 * b1.toNat + 65536 * b2.toNat + 16777216 * b3.toNat)

/-! ### Decoding (R89) -/

/-- What decoding at an offset gives: an instruction with its size, or the name of the error. -/
inductive DecodeResult where
  | ok (i : Instr) (size : Nat)
  | illegalOpcode
  | truncatedInstruction
deriving DecidableEq, Repr

/-- The operand read of format `OP_U32`: four bytes, or `TruncatedInstruction` (R133). -/
def decodeU32 (build : Word → Instr) : List Byte → DecodeResult
  | b0 :: b1 :: b2 :: b3 :: _ => .ok (build (le32 b0 b1 b2 b3)) 5
  | _ => .truncatedInstruction

/-- The operand read of format `OP_U8`: one byte, kept raw (R85), or `TruncatedInstruction` (R133). -/
def decodeU8 (build : Byte → Instr) : List Byte → DecodeResult
  | b :: _ => .ok (build b) 2
  | [] => .truncatedInstruction

/-- Decode the instruction at the head of a byte sequence. The opcode is tested before the operand is looked for (R89).
No byte at all is the fetch-time `TruncatedInstruction` of R132, which no step reaches. -/
def decodeBytes : List Byte → DecodeResult
  | [] => .truncatedInstruction
  | op :: rest =>
    if op = opLoad then decodeU32 .load rest
    else if op = opRead then decodeU8 .read rest
    else if op = opWrite then decodeU32 .write rest
    else if op = opSgn then .ok .sgn 1
    else .illegalOpcode

/-- `decode(code, s)` (R89). -/
def decode (code : List Byte) (s : Nat) : DecodeResult :=
  decodeBytes (code.drop s)

/-- Decode instruction after instruction, with as much fuel as there are bytes. -/
def decodeSequence : Nat → List Byte → Option (List Instr)
  | _, [] => some []
  | 0, _ :: _ => none
  | fuel + 1, b :: bs =>
    match decodeBytes (b :: bs) with
    | .ok i size => (decodeSequence fuel ((b :: bs).drop size)).map (i :: ·)
    | .illegalOpcode => none
    | .truncatedInstruction => none

/-- The instructions of a binary program, found by decoding from offset 0 (R91): `some` exactly for a well-formed program,
one with only valid opcodes and no truncated trailing instruction (R138). -/
def decodeProgram (code : List Byte) : Option (List Instr) :=
  decodeSequence code.length code

/-! ### The byte layout (R80, R83) -/

/-- The bytes of a 32-bit field in address order: `v[7:0]`, `v[15:8]`, `v[23:16]`, `v[31:24]` (R80). -/
def wordBytes (v : Word) : List Byte :=
  [v.extractLsb' 0 8, v.extractLsb' 8 8, v.extractLsb' 16 8, v.extractLsb' 24 8]

/-- The bytes of an instruction: the opcode, then the operand bytes (R80, R83). -/
def encode : Instr → List Byte
  | .load value => opLoad :: wordBytes value
  | .read off8 => [opRead, off8]
  | .write address => opWrite :: wordBytes address
  | .sgn => [opSgn]

/-- The bytes of a sequence of instructions: the concatenation in order, nothing in between (R91). -/
def encodeAll (is : List Instr) : List Byte :=
  is.flatMap encode

/-! ### The opcode table's words -/

/-- The bytes of a table word: bit 0 is the least significant bit of the byte at the lowest address (R80's `W`), bits
`nbits` and above are 0, up to the longest instruction's five bytes. -/
def tableBytes (nbits w : Nat) : List Byte :=
  [BitVec.ofNat 8 (w % 2 ^ nbits),
   BitVec.ofNat 8 (w % 2 ^ nbits / 2 ^ 8),
   BitVec.ofNat 8 (w % 2 ^ nbits / 2 ^ 16),
   BitVec.ofNat 8 (w % 2 ^ nbits / 2 ^ 24),
   BitVec.ofNat 8 (w % 2 ^ nbits / 2 ^ 32)]

/-- The instruction the decoder reads from a table word, `none` where it refuses. -/
def decodeTableWord (nbits w : Nat) : Option Instr :=
  match decodeBytes (tableBytes nbits w) with
  | .ok i _ => some i
  | .illegalOpcode => none
  | .truncatedInstruction => none

end Sys2Proof
end

