-- ==== Sys2Proof/Config.lean ====
section
/-! DEFINITION. What the spec leaves to an implementation: the parameters of a run, the encoder's policy, and the one free
value (the text of an error message). -/

namespace Sys2Proof

/-- `SGN_OPERAND_POLICY` (R11): what the encoder does with an operand given to `sgn`. OPEN in the spec (D7), with no
default, so every encoder operation takes it as an argument. -/
inductive SgnOperandPolicy where
  | ignore
  | reject
deriving DecidableEq, Repr

/-- The arguments of a run that no step changes (R47). The defaults are the spec's (R9, R10). -/
structure Params where
  /-- `DATA_MEM_SIZE`, written `N`: the number of bytes of data memory (R9). -/
  dataMemSize : Nat := 1024
  /-- `STACK_CAPACITY`: the greatest depth of the operand stack, `none` for unbounded (R10). -/
  stackCapacity : Option Nat := none
deriving DecidableEq, Repr

/-- The human-readable message of an error record (R184, R185): the spec fixes no text and no rule reads it. A free value:
nothing is known of it, and the host operations that show a message take its index as an argument (log entry 6). -/
opaque Config.errorMessage : Nat → String

end Sys2Proof
end

