-- ==== Sys2Proof/Machine/State.lean ====
section
/-! DEFINITION. The interpreter's state (R32), its run states and error records, and its value after construction (R45). -/

namespace Sys2Proof.Machine

/-- The run states (R39, R130). -/
inductive RunStatus where
  /-- Program loaded, instruction pointer at 0. -/
  | ready
  /-- Instruction pointer within the program. -/
  | running
  /-- The end of a run that reached the end of its program. -/
  | halted
  /-- The end of a run that an error aborted (R189). -/
  | faulted
deriving DecidableEq, Repr

/-- The kinds of execution error (R182). Taking one is a next state (R189), not an end of the model. -/
inductive ErrorKind where
  | illegalOpcode
  | truncatedInstruction
  | stackUnderflow
  | invalidAddress
  | stackOverflow
deriving DecidableEq, Repr

/-- An execution error record (R41, R185). -/
structure ErrorRecord where
  kind : ErrorKind
  /-- The starting offset of the instruction that failed. -/
  offset : Nat
  /-- The number of instructions completed before it. -/
  count : Nat
deriving DecidableEq, Repr

/-- Data memory (R38): the cells that do not hold 0, by strictly rising address. An address that is not listed reads as 0,
the reset value of every cell (R45). -/
abbrev Memory := List Host.Cell

/-- The state tuple `(code, ip, S, dmem, status, count, err)` of R32, and the parameters of the run (R47), which no step
changes. -/
structure State where
  /-- The program, read-only (R37); its length is `L` (R13). -/
  code : List Byte
  /-- The instruction pointer (R35): between steps, the offset of the next opcode byte. -/
  ip : Nat
  /-- The operand stack `S`, bottom to top (R18, R33). -/
  stack : List Int
  /-- Data memory (R38). -/
  dmem : Memory
  /-- The run state (R39). -/
  status : RunStatus
  /-- The number of instructions completed so far (R40). -/
  count : Nat
  /-- The error record of a faulted run (R41). -/
  err : Option ErrorRecord
  /-- The arguments of the run: `N` and `STACK_CAPACITY` (R9, R10, R47). -/
  params : Params
deriving DecidableEq, Repr

/-- The working copies of `S` and `dmem` that an instruction's execute part acts on before they are committed (R131). -/
structure Work where
  stack : List Int
  dmem : Memory
deriving DecidableEq, Repr

/-- Why `step` has no next state. Both are raised by `cycle` alone: a run that has ended has no transition (R130). Safe: the
model claims nothing after the end of a run. No instruction's meaning ends in one. -/
inductive Fault where
  /-- `step` was asked for from `Halted`. Raised by `cycle`; safe. -/
  | noStepFromHalted
  /-- `step` was asked for from `Faulted`. Raised by `cycle`; safe. -/
  | noStepFromFaulted
deriving DecidableEq, Repr

/-- Why an instruction has no meaning. Safe: no claim rests on an instruction that is refused. -/
inductive Refusal where
  /-- An arm of `exec` that gives no meaning yet. Raised by `exec` alone; no arm raises it now. Safe. -/
  | notModelled (mnemonic : String)
deriving DecidableEq, Repr

/-- `construct(code, N)` (R210): the state of R45 for a program and the parameters of a run. -/
def State.construct (code : List Byte) (params : Params) : State where
  code := code
  ip := 0
  stack := []
  dmem := []
  status := .ready
  count := 0
  err := none
  params := params

/-- The machine right after reset: construction with the default parameters and no program loaded (log entry 2). -/
def State.reset : State := State.construct [] {}

end Sys2Proof.Machine
end

