-- ==== Sys2Proof/Machine/Ops.lean ====
section
/-! DEFINITION. The named operations over the state: the stack primitives (R18, R149), the bounds check (R63), data memory
(R19, R62), completing an instruction (R135) and taking an error (R131, R189). -/

namespace Sys2Proof.Machine

/-! ### The operand stack -/

/-- `push(v)` (R18, R149): `StackOverflow` exactly when a capacity is set and the stack holds that many entries. -/
def push (capacity : Option Nat) (stack : List Int) (v : Int) : Except ErrorKind (List Int) :=
  match capacity with
  | none => .ok (stack ++ [v])
  | some k => if stack.length = k then .error .stackOverflow else .ok (stack ++ [v])

/-- `pop()` (R18): the top entry and the stack below it, or `StackUnderflow`. -/
def pop (stack : List Int) : Except ErrorKind (Int × List Int) :=
  match stack.getLast? with
  | none => .error .stackUnderflow
  | some v => .ok (v, stack.dropLast)

/-! ### Data memory -/

/-- The canonical form: addresses strictly rising, and no listed cell holds 0. -/
abbrev Memory.wf (m : Memory) : Prop :=
  m.Pairwise (fun c d => c.1 < d.1) ∧ ∀ c ∈ m, c.2 ≠ 0#8

/-- `MemRead(a, 1)` (R19). -/
def Memory.read : Memory → Nat → Byte
  | [], _ => 0#8
  | (k, b) :: m, a => if k = a then b else Memory.read m a

/-- `MemWrite(a, 1, v)` (R19), keeping the canonical form. -/
def Memory.write : Memory → Nat → Byte → Memory
  | [], a, v => if v = 0#8 then [] else [(a, v)]
  | (k, b) :: m, a, v =>
    if a < k then (if v = 0#8 then (k, b) :: m else (a, v) :: (k, b) :: m)
    else if a = k then (if v = 0#8 then m else (a, v) :: m)
    else (k, b) :: Memory.write m a v

/-- The data memory whose cells from address `a` on hold the listed bytes, all others 0 (R213's image). -/
def Memory.ofBytes : Nat → List Byte → Memory
  | _, [] => []
  | a, b :: bs => if b = 0#8 then Memory.ofBytes (a + 1) bs else (a, b) :: Memory.ofBytes (a + 1) bs

/-- The bytes of `n` cells from address `a` on, in increasing address order. -/
def Memory.bytesFrom (m : Memory) (a n : Nat) : List Byte :=
  (List.range n).map (fun k => m.read (a + k))

/-- `inBounds(a) := (0 <= a) and (a < N)` (R63), on an exact integer. -/
def inBounds (dataMemSize : Nat) (a : Int) : Bool :=
  decide (0 ≤ a) && decide (a < (dataMemSize : Int))

/-- The check of R63 before an access: the cell's address, or `InvalidAddress`. -/
def checkAddress (dataMemSize : Nat) (a : Int) : Except ErrorKind Nat :=
  if inBounds dataMemSize a then .ok a.toNat else .error .invalidAddress

/-! ### Completing an instruction, and taking an error -/

/-- The working copies an execute part begins with (R131). -/
def State.work (s : State) : Work := { stack := s.stack, dmem := s.dmem }

/-- The run state after a completed instruction that leaves the instruction pointer at `p` (R130, R135). -/
def statusAt (length p : Nat) : RunStatus := if p = length then .halted else .running

/-- Completion (R135): commit `S` and `dmem` together, move `ip` past the instruction, count it, and set the run state. -/
def State.complete (s : State) (size : Nat) (w : Work) : State :=
  { s with
    stack := w.stack
    dmem := w.dmem
    ip := s.ip + size
    count := s.count + 1
    status := statusAt s.code.length (s.ip + size) }

/-- TAKING AN ERROR, `fault(kind, s)` of R131 (R189, R190): the run state becomes `Faulted`, the record holds the kind, the
instruction's starting offset and the count of completed instructions, and nothing else changes. `ip` is still at the
instruction's start, because only completion moves it. There is no return from an error (R192). -/
def State.takeError (s : State) (kind : ErrorKind) : State :=
  { s with
    status := .faulted
    err := some { kind := kind, offset := s.ip, count := s.count } }

/-- What becomes of an execute part's answer: completion, or the error it raised (R131). -/
def State.settle (s : State) (i : Instr) : Except ErrorKind Work → State
  | .ok w => s.complete i.size w
  | .error kind => s.takeError kind

/-- The step that finds no instruction left: `Ready` with `L = 0` goes to `Halted`, nothing counted (R130, R131). -/
def State.haltAtEnd (s : State) : State := { s with status := .halted }

/-- A run has ended exactly in `Halted` and `Faulted` (R219). -/
def State.ended (s : State) : Bool :=
  match s.status with
  | .ready => false
  | .running => false
  | .halted => true
  | .faulted => true

end Sys2Proof.Machine
end

