-- ==== Sys2Proof/Machine/StackMemory.lean ====
section
/-! DEFINITION. The execute part of each instruction on the working copies (R150, R152, R154, R156), in the order of its
pseudocode, and the instruction's meaning: that part, settled (R131). -/

namespace Sys2Proof.Machine

/-- `exec LOAD_CONST(value)` (R150). -/
def loadConst (params : Params) (value : Word) (w : Work) : Except ErrorKind Work := do
  let stack ← push params.stackCapacity w.stack (constantValue value)
  return { w with stack := stack }

/-- `exec READ_MEM(offset)` (R152): the pop comes before the address check (R160). -/
def readMem (params : Params) (off8 : Byte) (w : Work) : Except ErrorKind Work := do
  let (base, below) ← pop w.stack
  let a ← checkAddress params.dataMemSize (baseOffsetAddress base off8)
  let stack ← push params.stackCapacity below (byteValue (w.dmem.read a))
  return { w with stack := stack }

/-- `exec WRITE_MEM(address)` (R154): the pop comes before the address check (R160). -/
def writeMem (params : Params) (address : Word) (w : Work) : Except ErrorKind Work := do
  let (value, below) ← pop w.stack
  let a ← checkAddress params.dataMemSize (absoluteAddress address)
  return { stack := below, dmem := w.dmem.write a (storedByte value) }

/-- `exec SGN` (R156): the pop comes before the address check (R160). -/
def sgnMem (params : Params) (w : Work) : Except ErrorKind Work := do
  let (top, below) ← pop w.stack
  let a ← checkAddress params.dataMemSize (stackAddress top)
  let stack ← push params.stackCapacity below (signOf (sext8 (w.dmem.read a)))
  return { w with stack := stack }

/-- `load` (R150). -/
def execLoad (value : Word) (s : State) : Host.Outcome State Fault Refusal :=
  .next (s.settle (.load value) (loadConst s.params value s.work))

/-- `read` (R152). -/
def execRead (off8 : Byte) (s : State) : Host.Outcome State Fault Refusal :=
  .next (s.settle (.read off8) (readMem s.params off8 s.work))

/-- `write` (R154). -/
def execWrite (address : Word) (s : State) : Host.Outcome State Fault Refusal :=
  .next (s.settle (.write address) (writeMem s.params address s.work))

/-- `sgn` (R156). -/
def execSgn (s : State) : Host.Outcome State Fault Refusal :=
  .next (s.settle .sgn (sgnMem s.params s.work))

end Sys2Proof.Machine
end

