-- ==== Sys2Proof/Machine/Dispatch.lean ====
section
/-! DEFINITION. One arm per instruction (R133): the whole effect of the instruction that starts at the state's `ip`. -/

namespace Sys2Proof.Machine

/-- The meaning of an instruction (R150, R152, R154, R156), with completion or the error it raises (R131). -/
def exec (i : Instr) (s : State) : Host.Outcome State Fault Refusal :=
  match i with
  | .load value => Sys2Proof.Machine.execLoad value s
  | .read off8 => Sys2Proof.Machine.execRead off8 s
  | .write address => Sys2Proof.Machine.execWrite address s
  | .sgn => Sys2Proof.Machine.execSgn s

end Sys2Proof.Machine
end

