-- ==== Sys2Proof/Machine/Cycle.lean ====
section
/-! DEFINITION. One iteration of the fetch-decode-execute loop (R131). -/

namespace Sys2Proof.Machine

/-- Fetch and decode at `ip`, then run the instruction, or take the error that fetch and decode found (R133). With no
instruction left, the run halts (R130). -/
def fetchDecodeExecute (s : State) : Host.Outcome State Fault Refusal :=
  if s.code.length ≤ s.ip then .next s.haltAtEnd
  else
    match decode s.code s.ip with
    | .ok i _ => exec i s
    | .illegalOpcode => .next (s.takeError .illegalOpcode)
    | .truncatedInstruction => .next (s.takeError .truncatedInstruction)

/-- The step of R131, defined only in `Ready` and `Running`: from `Halted` and `Faulted` there is no transition (R130), so
the model stops there by name. -/
def cycle (s : State) : Host.Outcome State Fault Refusal :=
  match s.status with
  | .ready => fetchDecodeExecute s
  | .running => fetchDecodeExecute s
  | .halted => .fault .noStepFromHalted
  | .faulted => .fault .noStepFromFaulted

end Sys2Proof.Machine
end

