-- ==== Sys2Proof/Machine/Step.lean ====
section
/-! DEFINITION. The step of the machine, and the placing of one instruction where the next step fetches. -/

namespace Sys2Proof.Machine

/-- One interpreter step (R131). -/
def step (s : State) : Host.Outcome State Fault Refusal := cycle s

/-- The run state in which the next step fetches: an ended run is taken as running again, any other is kept. -/
def RunStatus.fetching : RunStatus → RunStatus
  | .ready => .ready
  | .running => .running
  | .halted => .running
  | .faulted => .running

/-- The state with the table word's five bytes in code memory at `ip`, where the next step fetches, padding with zeros up to
`ip` if the program is shorter. It stands for the host's load of a program (R212, log entries 2 and 14). -/
def State.withFetchWord (s : State) (nbits w : Nat) : State :=
  { s with
    code := s.code.take s.ip ++ List.replicate (s.ip - s.code.length) 0 ++ tableBytes nbits w ++ s.code.drop (s.ip + 5)
    status := s.status.fetching }

end Sys2Proof.Machine
end

