-- ==== Sys2Proof/Machine/Encoder.lean ====
section
/-! DEFINITION. The instruction encoder block (R100 to R111): symbolic instructions to bytes, with its validation. It holds
no state (R31). -/

namespace Sys2Proof.Machine

/-- A symbolic instruction (R100): the mnemonic string, the resolved operand if there is one, and the source line. -/
structure SymInstr where
  mnemonic : String
  operand : Option Int
  line : Nat
deriving DecidableEq, Repr

/-- The kinds of encoding error (R181). -/
inductive EncodeErrorKind where
  | unknownMnemonic
  | missingOperand
  | operandOutOfRange
  | unexpectedOperand
deriving DecidableEq, Repr

/-- An encoding error record (R184). -/
structure EncodeError where
  kind : EncodeErrorKind
  line : Nat
deriving DecidableEq, Repr

/-- The spec's reference code of an encoding error (R181). No rule reads it. -/
def EncodeErrorKind.code : EncodeErrorKind → Nat
  | .unknownMnemonic => 1
  | .missingOperand => 2
  | .operandOutOfRange => 3
  | .unexpectedOperand => 4

/-- `lookup(m)` (R101): exact and case-sensitive. -/
def lookup (m : String) : Option Byte :=
  if m = "load" then some opLoad
  else if m = "read" then some opRead
  else if m = "write" then some opWrite
  else if m = "sgn" then some opSgn
  else none

/-- The operand of `load` and `write` (R103, R105): any value in `[0, 2^32-1]`, with no truncation. -/
def operandU32 : Option Int → Except EncodeErrorKind Word
  | none => .error .missingOperand
  | some v => if v < 0 ∨ v > 2 ^ 32 - 1 then .error .operandOutOfRange else .ok (BitVec.ofNat 32 v.toNat)

/-- The operand of `read` (R104): an offset in `[0, 63]`. -/
def operandOffset : Option Int → Except EncodeErrorKind Byte
  | none => .error .missingOperand
  | some off => if off > 63 ∨ off < 0 then .error .operandOutOfRange else .ok (BitVec.ofNat 8 off.toNat)

/-- `encode_load` (R103). -/
def encodeLoad (operand : Option Int) : Except EncodeErrorKind (List Byte) := do
  let v ← operandU32 operand
  return encode (.load v)

/-- `encode_read` (R104). -/
def encodeRead (operand : Option Int) : Except EncodeErrorKind (List Byte) := do
  let off ← operandOffset operand
  return encode (.read off)

/-- `encode_write` (R105). -/
def encodeWrite (operand : Option Int) : Except EncodeErrorKind (List Byte) := do
  let a ← operandU32 operand
  return encode (.write a)

/-- `encode_sgn` (R106): an operand is discarded or refused, as the policy says (R11). -/
def encodeSgn (policy : SgnOperandPolicy) (operand : Option Int) : Except EncodeErrorKind (List Byte) :=
  match operand, policy with
  | some _, .reject => .error .unexpectedOperand
  | some _, .ignore => .ok (encode .sgn)
  | none, _ => .ok (encode .sgn)

/-- The bytes or the kind of error of one symbolic instruction, in the order of R102: the line plays no part (R107). -/
def encodeOperand (policy : SgnOperandPolicy) (m : String) (operand : Option Int) : Except EncodeErrorKind (List Byte) :=
  match lookup m with
  | none => .error .unknownMnemonic
  | some op =>
    if op = opLoad then encodeLoad operand
    else if op = opRead then encodeRead operand
    else if op = opWrite then encodeWrite operand
    else encodeSgn policy operand

/-- `encode` (R100): bytes, or an error that carries the line. -/
def encodeSymbolic (policy : SgnOperandPolicy) (i : SymInstr) : Except EncodeError (List Byte) :=
  match encodeOperand policy i.mnemonic i.operand with
  | .ok bytes => .ok bytes
  | .error kind => .error { kind := kind, line := i.line }

/-- `encode_program` (R108): the concatenation in order, or the first failing instruction's error and no bytes. -/
def encodeProgram (policy : SgnOperandPolicy) : List SymInstr → Except EncodeError (List Byte)
  | [] => .ok []
  | i :: is => do
    let bytes ← encodeSymbolic policy i
    let rest ← encodeProgram policy is
    return bytes ++ rest

end Sys2Proof.Machine
end

