-- ==== Sys2Proof/Machine/HostInterface.lean ====
section
/-! DEFINITION. What the host does with an interpreter (R214): construct it, launch it from an image, run it, bound a run,
look at data memory, and show an error. -/

namespace Sys2Proof.Machine

/-- The spec's reference code of an execution error (R182). No rule reads it. -/
def ErrorKind.code : ErrorKind → Nat
  | .illegalOpcode => 16
  | .truncatedInstruction => 17
  | .stackUnderflow => 18
  | .invalidAddress => 19
  | .stackOverflow => 20

/-- The error of the host interface (R183). -/
inductive HostErrorKind where
  | invalidRange
deriving DecidableEq, Repr

/-- The spec's reference code of a host error (R183). -/
def HostErrorKind.code : HostErrorKind → Nat
  | .invalidRange => 32

/-! ### Launching -/

/-- A launch from a data-memory image (R213): the reset state, but cell `a` holds the image's byte `a` for `a` below `N`.
Cells past the end of the image hold 0. -/
def State.launch (code : List Byte) (params : Params) (image : List Byte) : State :=
  { State.construct code params with dmem := Memory.ofBytes 0 (image.take params.dataMemSize) }

/-- The prefix that builds an image from reset (R213): `load D0[a]; write a` for each cell that is not 0. -/
def imagePrefix (m : Memory) : List Instr :=
  m.flatMap (fun c => [.load (BitVec.ofNat 32 c.2.toNat), .write (BitVec.ofNat 32 c.1)])

/-! ### Running -/

/-- The result of a run (R136), or the host's limit (R218). A faulted run shows its error record alone (R190, R216). -/
inductive RunResult where
  | halted (stack : List Int) (dmem : List Byte) (count : Nat)
  | faulted (kind : ErrorKind) (offset count : Nat)
  | limitReached
deriving DecidableEq, Repr

/-- What the host gets from the state a run stopped in (R136, R216). A state that has not ended is a run the host stopped. -/
def State.result (s : State) : RunResult :=
  match s.status, s.err with
  | .halted, _ => .halted s.stack (s.dmem.bytesFrom 0 s.params.dataMemSize) s.count
  | .faulted, some r => .faulted r.kind r.offset r.count
  | .faulted, none => .limitReached
  | .ready, _ => .limitReached
  | .running, _ => .limitReached

/-- The state after exactly `k` steps (R131), `none` where the run ended before. -/
def steps : Nat → State → Option State
  | 0, s => some s
  | k + 1, s =>
    match step s with
    | .next t => steps k t
    | .fault _ => none
    | .refused _ => none

/-- Step until the run ends or `limit` instructions have completed (R136, R218). The step that finds no instruction
completes none, so it is taken at the limit as well. -/
def runTo : Nat → State → State
  | 0, s => if !s.ended && decide (s.code.length ≤ s.ip) then s.haltAtEnd else s
  | limit + 1, s =>
    match step s with
    | .next t => runTo limit t
    | .fault _ => s
    | .refused _ => s

/-- `run()` under the host's instruction-count limit `F` (R218). -/
def runLimited (limit : Nat) (code : List Byte) (params : Params) : RunResult :=
  (runTo limit (State.construct code params)).result

/-- `run(code, N)` (R136). A run takes at most `L` instruction steps (R137), so the limit `L` never fires (R218). -/
def run (code : List Byte) (params : Params) : RunResult :=
  runLimited code.length code params

/-! ### Inspecting -/

/-- The answer to a memory-inspection request (R217). -/
inductive InspectAnswer where
  | bytes (bs : List Byte)
  | error (kind : HostErrorKind)
  /-- The run did not end in `Halted` (R216). -/
  | refused
deriving DecidableEq, Repr

/-- `inspect(first, last)` (R217): the bytes at the addresses from `first` to `last` inclusive, after a halted run. -/
def inspect (s : State) (first last : Int) : InspectAnswer :=
  match s.status with
  | .halted =>
    if 0 ≤ first ∧ first ≤ last ∧ last < (s.params.dataMemSize : Int) then
      .bytes (s.dmem.bytesFrom first.toNat (last - first + 1).toNat)
    else .error .invalidRange
  | .ready => .refused
  | .running => .refused
  | .faulted => .refused

/-! ### Showing an error -/

/-- An error as the caller gets it: the record and a human-readable message (R180, R184, R185). -/
structure Shown (α : Type) where
  record : α
  message : String
deriving DecidableEq, Repr

/-- The error shown with some message: the index is free, and so is the text at it (log entry 6). -/
def showError {α : Type} (index : Nat) (record : α) : Shown α :=
  { record := record, message := Config.errorMessage index }

end Sys2Proof.Machine
end

