-- ==== Sys2Proof/WellFormed.lean ====
section
/-! DEFINITION. Which instructions the encoder can emit. The fields' widths are in the types, so one check is left: the
reserved bits `off8[7:6]` of `read` are clear (R85, R104). The interpreter runs an instruction that fails the check as well
(R85, R215): this is a property of the encoder's output, not a condition for execution. -/

namespace Sys2Proof

/-- The offset byte of `read` as the encoder emits it: an offset in `[0, 63]` (R104), so bits 7:6 are clear. -/
def offsetWellFormed (off8 : Byte) : Bool := decide (off8.toNat ≤ 63)

/-- An instruction the encoder can emit (R103 to R106). -/
def Instr.wellFormed : Instr → Bool
  | .load _ => true
  | .read off8 => offsetWellFormed off8
  | .write _ => true
  | .sgn => true

end Sys2Proof
end

