-- ==== Sys2Proof/Safety.lean ====
section
/-! DEFINITION. The terms claims are stated in: what a completed instruction and an error leave, the invariant of a run, and
how a symbolic instruction corresponds to a decoded one. -/

namespace Sys2Proof.Machine

/-- A run that has not ended: `step` is defined exactly here (R131). -/
def State.Active (s : State) : Prop := s.status = .ready ∨ s.status = .running

/-- The stack is no deeper than the capacity, where one is set (R10). Every run keeps this. -/
def State.WithinCapacity (s : State) : Prop := ∀ k, s.params.stackCapacity = some k → s.stack.length ≤ k

/-- The next push overflows: a capacity is set and reached (R149). -/
def State.StackFull (s : State) : Prop := s.params.stackCapacity = some s.stack.length

/-- What every instruction of `size` bytes does on completion, beside its effect on `S` and `dmem` (R135), and all that it
leaves alone: the program, the parameters and the error record. -/
def State.CompletedTo (s t : State) (size : Nat) : Prop :=
  t.ip = s.ip + size ∧ t.count = s.count + 1 ∧
  t.status = (if s.ip + size = s.code.length then .halted else .running) ∧
  t.code = s.code ∧ t.params = s.params ∧ t.err = s.err

/-- What an error leaves (R185, R189, R190). The record's offset and count are the spec's own choices (D13, D14, log entry 16).
The stack is left out on purpose: a claim must not read the stack of a faulted
run (R190). -/
def State.FaultedTo (s t : State) (kind : ErrorKind) : Prop :=
  t.status = .faulted ∧ t.err = some { kind := kind, offset := s.ip, count := s.count } ∧
  t.ip = s.ip ∧ t.count = s.count ∧ t.dmem = s.dmem ∧ t.code = s.code ∧ t.params = s.params

/-- The unsigned little-endian value of the four bytes at an offset of a program (R16). -/
def le32At (code : List Byte) (p : Nat) : Nat :=
  (code.getD p 0).toNat + 256 * (code.getD (p + 1) 0).toNat + 65536 * (code.getD (p + 2) 0).toNat
    + 16777216 * (code.getD (p + 3) 0).toNat

/-- The invariant of a run. No clause reads the stack of a faulted run (R190). -/
structure State.Inv (s : State) : Prop where
  /-- `ip` lies in `[0, L]` (R35, R134). -/
  ipInCode : s.ip ≤ s.code.length
  /-- Data memory is in canonical form. -/
  dmemCanonical : Memory.wf s.dmem
  /-- Only cells below `N` are ever written (R38, R63). -/
  dmemInBounds : ∀ c ∈ s.dmem, c.1 < s.params.dataMemSize
  /-- Every stack entry lies in `[-1, 2^32 - 1]` (R34). -/
  stackInRange : s.status ≠ .faulted → ∀ v ∈ s.stack, -1 ≤ v ∧ v ≤ 2 ^ 32 - 1
  /-- The stack never exceeds its capacity (R10, R149). -/
  withinCapacity : s.status ≠ .faulted → s.WithinCapacity
  /-- Each completed instruction moved `ip` by at least one byte (R134). -/
  countLeIp : s.count ≤ s.ip
  /-- `Ready`: nothing has run (R39, R45). -/
  atReady : s.status = .ready → s.ip = 0 ∧ s.count = 0 ∧ s.stack = []
  /-- `Running`: something has run, and `ip` is strictly within the program (R39). -/
  atRunning : s.status = .running → 0 < s.count ∧ s.ip < s.code.length
  /-- `Halted`: `ip` is at the end of the program (R39, R130). -/
  atHalted : s.status = .halted → s.ip = s.code.length
  /-- A faulted run, and no other, has an error record: its start offset and count are the state's own (R41, R185, R189). -/
  errExactlyAtFault : if s.status = .faulted then ∃ kind, s.err = some { kind := kind, offset := s.ip, count := s.count }
    else s.err = none

/-- A decoded instruction carries what a symbolic one says: the same operation and the same operand value (R90). -/
def carries (i : Instr) (x : SymInstr) : Prop :=
  match i with
  | .load value => x.mnemonic = "load" ∧ x.operand = some (value.toNat : Int)
  | .read off8 => x.mnemonic = "read" ∧ x.operand = some (off8.toNat : Int)
  | .write address => x.mnemonic = "write" ∧ x.operand = some (address.toNat : Int)
  | .sgn => x.mnemonic = "sgn"

/-- The offset at which instruction `k` of a sequence starts: the sizes before it, added up (R110). -/
def startOffset (is : List Instr) (k : Nat) : Nat := ((is.take k).map Instr.size).sum

end Sys2Proof.Machine
end

