-- ==== Sys2Proof/Certificates/Slice0/Obligations.lean ====
section
/-! DEFINITION. The statements for the provers. Each docstring names the rules of the spec it formalises. -/

open Sys2Proof Sys2Proof.Machine

/-! ### The decoder and the byte layout -/

/-- Words written out from the encodings of R83, each decoded at the offset where it stands. -/
def Obligations.WrittenOutWordsDecode : Prop :=
  decode [0x4A, 0xD4, 0x01, 0x00, 0x00] 0 = .ok (.load 468) 5 ∧
  decode [0x4A, 0x12, 0x34, 0x56, 0x78] 0 = .ok (.load 0x78563412) 5 ∧
  decode [0x9A, 0x87, 0xC5] 1 = .ok (.read 0xC5) 2 ∧
  decode [0xD5, 0xE0, 0x00, 0x00, 0x00] 0 = .ok (.write 224) 5 ∧
  decode [0x9A] 0 = .ok .sgn 1 ∧
  decode [0x4B, 0x00, 0x00, 0x00, 0x00] 0 = .illegalOpcode ∧
  decode [0xD5, 0x01, 0x00, 0x00] 0 = .truncatedInstruction

/-- R89, whole: on any byte sequence and any start offset inside it, decoding gives what the rule's case table says. -/
def Obligations.DecodeFollowsTheCaseTable : Prop :=
  ∀ (code : List Byte) (s : Nat) (op : Byte), code[s]? = some op →
    (op = 0x4A#8 →
      (code.length - (s + 1) < 4 → decode code s = .truncatedInstruction) ∧
      (4 ≤ code.length - (s + 1) →
        ∃ v : Word, v.toNat = le32At code (s + 1) ∧ decode code s = .ok (.load v) 5)) ∧
    (op = 0x87#8 →
      (code.length - (s + 1) < 1 → decode code s = .truncatedInstruction) ∧
      (∀ b, code[s + 1]? = some b → decode code s = .ok (.read b) 2)) ∧
    (op = 0xD5#8 →
      (code.length - (s + 1) < 4 → decode code s = .truncatedInstruction) ∧
      (4 ≤ code.length - (s + 1) →
        ∃ a : Word, a.toNat = le32At code (s + 1) ∧ decode code s = .ok (.write a) 5)) ∧
    (op = 0x9A#8 → decode code s = .ok .sgn 1) ∧
    (op ≠ 0x4A#8 → op ≠ 0x87#8 → op ≠ 0xD5#8 → op ≠ 0x9A#8 → decode code s = .illegalOpcode)

/-- Wherever an instruction's bytes stand in a program, decoding there gives the instruction back, whatever its operand
(the raw offset byte with its reserved bits included). R90, R91. -/
def Obligations.EncodedInstructionDecodesInAnyContext : Prop :=
  ∀ (i : Instr) (pre post : List Byte), decode (pre ++ encode i ++ post) pre.length = .ok i i.size

/-- Decoding a whole program inverts concatenating the encodings, in both directions: no two byte sequences decode to the
same instructions, and every well-formed program is the encoding of what it decodes to. R91, R138. -/
def Obligations.ProgramDecodingInvertsConcatenation : Prop :=
  ∀ (code : List Byte) (is : List Instr), decodeProgram code = some is ↔ code = encodeAll is

/-- R82, whole: the size table, and §8's size invariant for everything the encoder accepts. -/
def Obligations.SizeDependsOnTheOpcodeAlone : Prop :=
  encodedSize 0x4A#8 = some 5 ∧ encodedSize 0x87#8 = some 2 ∧ encodedSize 0xD5#8 = some 5 ∧ encodedSize 0x9A#8 = some 1 ∧
  (∀ (policy : SgnOperandPolicy) (x : SymInstr) (bytes : List Byte), encodeSymbolic policy x = .ok bytes →
    ∃ op, lookup x.mnemonic = some op ∧ bytes.head? = some op ∧ encodedSize op = some bytes.length) ∧
  (∀ (code : List Byte) (s : Nat) (i : Instr) (n : Nat), decode code s = .ok i n →
    ∃ op, code[s]? = some op ∧ encodedSize op = some n)

/-- R86: the interpreter raises `IllegalOpcode` for an opcode byte outside the four, there are 252 such values, and
bytes in operand position are never checked against the opcode map. The offset and the count of the record are the spec's own
choices (D13, D14, log entry 16). -/
def Obligations.OnlyFourOpcodesAreLegal : Prop :=
  (∀ (s : State) (op : Byte), s.Active → s.code[s.ip]? = some op →
    ((op ≠ 74#8 ∧ op ≠ 135#8 ∧ op ≠ 213#8 ∧ op ≠ 154#8) →
      ∃ t, step s = .next t ∧ s.FaultedTo t .illegalOpcode) ∧
    (op = 74#8 ∨ op = 135#8 ∨ op = 213#8 ∨ op = 154#8 →
      ∃ t, step s = .next t ∧ ∀ r, t.err = some r → t.status = .faulted → r.kind ≠ .illegalOpcode)) ∧
  ((List.range 256).filter (fun n => decide (decodeBytes [BitVec.ofNat 8 n] = .illegalOpcode))).length = 252 ∧
  (∀ b0 b1 b2 b3 : Byte,
    decodeBytes [0x4A, b0, b1, b2, b3] ≠ .illegalOpcode ∧ decodeBytes [0x87, b0] ≠ .illegalOpcode ∧
    decodeBytes [0xD5, b0, b1, b2, b3] ≠ .illegalOpcode)

/-! ### The encoder -/

/-- R101: the four mnemonics and no other string. Exact matching is the spec's own choice (D3, log entry 7). -/
def Obligations.MnemonicLookupIsExact : Prop :=
  ∀ (m : String) (op : Byte), lookup m = some op ↔
    (m = "load" ∧ op = 0x4A#8) ∨ (m = "read" ∧ op = 0x87#8) ∨ (m = "write" ∧ op = 0xD5#8) ∨ (m = "sgn" ∧ op = 0x9A#8)

/-- R103 to R106: the bytes of every accepted instruction, as numbers. -/
def Obligations.AcceptedOperandsEncodeExactly : Prop :=
  ∀ (policy : SgnOperandPolicy) (line v : Nat),
    (v ≤ 2 ^ 32 - 1 →
      (∃ bs, encodeSymbolic policy ⟨"load", some (v : Int), line⟩ = .ok bs ∧
        bs.map BitVec.toNat = [0x4A, v % 256, v / 256 % 256, v / 65536 % 256, v / 16777216]) ∧
      (∃ bs, encodeSymbolic policy ⟨"write", some (v : Int), line⟩ = .ok bs ∧
        bs.map BitVec.toNat = [0xD5, v % 256, v / 256 % 256, v / 65536 % 256, v / 16777216])) ∧
    (v ≤ 63 → ∃ bs, encodeSymbolic policy ⟨"read", some (v : Int), line⟩ = .ok bs ∧
      bs.map BitVec.toNat = [0x87, v]) ∧
    encodeSymbolic policy ⟨"sgn", none, line⟩ = .ok [0x9A] ∧
    (∀ o : Int, encodeSymbolic .ignore ⟨"sgn", some o, line⟩ = .ok [0x9A])

/-- R102 to R106 and R186: exactly when each encoding error is raised. The conditions exclude one another, in the order of
R102, and the record carries the line. The order and the two range errors beyond `read > 63` are the spec's own choices
(D3 to D7, log entries 7 and 10). -/
def Obligations.EncodingErrorsFollowTheOrder : Prop :=
  ∀ (policy : SgnOperandPolicy) (x : SymInstr) (e : EncodeError), encodeSymbolic policy x = .error e ↔
    e.line = x.line ∧
    ((e.kind = .unknownMnemonic ∧ x.mnemonic ∉ ["load", "read", "write", "sgn"]) ∨
     (e.kind = .missingOperand ∧ x.mnemonic ∈ ["load", "read", "write"] ∧ x.operand = none) ∨
     (e.kind = .operandOutOfRange ∧ ∃ v, x.operand = some v ∧
       ((x.mnemonic ∈ ["load", "write"] ∧ (v < 0 ∨ 2 ^ 32 - 1 < v)) ∨ (x.mnemonic = "read" ∧ (v < 0 ∨ 63 < v)))) ∨
     (e.kind = .unexpectedOperand ∧ x.mnemonic = "sgn" ∧ policy = .reject ∧ ∃ v, x.operand = some v))

/-- R107, whole: the line affects only the error record and never the bytes, and nothing is padded, aligned or inserted
between instructions, wherever an instruction stands. -/
def Obligations.EncodingIsInstructionLocal : Prop :=
  (∀ (policy : SgnOperandPolicy) (m : String) (o : Option Int) (l1 l2 : Nat) (bytes : List Byte),
    encodeSymbolic policy ⟨m, o, l1⟩ = .ok bytes → encodeSymbolic policy ⟨m, o, l2⟩ = .ok bytes) ∧
  (∀ (policy : SgnOperandPolicy) (m : String) (o : Option Int) (l1 l2 : Nat) (e : EncodeError),
    encodeSymbolic policy ⟨m, o, l1⟩ = .error e → encodeSymbolic policy ⟨m, o, l2⟩ = .error { e with line := l2 }) ∧
  (∀ (policy : SgnOperandPolicy) (xs ys : List SymInstr) (code : List Byte),
    encodeProgram policy (xs ++ ys) = .ok code ↔
      ∃ a b, encodeProgram policy xs = .ok a ∧ encodeProgram policy ys = .ok b ∧ code = a ++ b) ∧
  (∀ (policy : SgnOperandPolicy) (x : SymInstr) (bytes : List Byte),
    encodeProgram policy [x] = .ok bytes ↔ encodeSymbolic policy x = .ok bytes)

/-- R108: a program's error is the first failing instruction's, and the empty program encodes to no bytes. -/
def Obligations.ProgramEncodingFailsFast : Prop :=
  (∀ (policy : SgnOperandPolicy) (xs : List SymInstr) (e : EncodeError),
    encodeProgram policy xs = .error e ↔
      ∃ before x after, xs = before ++ x :: after ∧
        (∀ y ∈ before, ∃ b, encodeSymbolic policy y = .ok b) ∧ encodeSymbolic policy x = .error e) ∧
  (∀ policy, encodeProgram policy [] = .ok [])

/-- R110, R111: what the encoder emits for a program is a well-formed program of instructions that carry the same operations
and operands and are well-formed, and decoding at each start offset gives the instruction that starts there. -/
def Obligations.EncodedProgramDecodesToItsSource : Prop :=
  ∀ (policy : SgnOperandPolicy) (xs : List SymInstr) (code : List Byte), encodeProgram policy xs = .ok code →
    ∃ is, decodeProgram code = some is ∧ List.Forall₂ carries is xs ∧ (∀ i ∈ is, i.wellFormed = true) ∧
      (∀ k i, is[k]? = some i → decode code (startOffset is k) = .ok i i.size)

/-! ### The instructions -/

/-- R150: on any state, `LOAD_CONST` pushes its unsigned field, or, with a capacity set and reached, raises `StackOverflow`;
its encoding is `4A` and four bytes; data memory is not written, nor read (the stack it leaves does not depend on it). The
capacity and its error are the spec's own choice (D10, R149, log entry 22), and so are the offset and the count of the record
(D13, D14, log entry 16). -/
def Obligations.LoadConstPushesItsField : Prop :=
  ∀ (v : Word) (s : State),
    ((encode (.load v)).head? = some 0x4A#8 ∧ (encode (.load v)).length = 5) ∧
    (¬ s.StackFull → ∃ t, exec (.load v) s = .next t ∧ s.CompletedTo t 5 ∧
      t.stack = s.stack ++ [(v.toNat : Int)] ∧ t.dmem = s.dmem) ∧
    (s.StackFull → ∃ t, exec (.load v) s = .next t ∧ s.FaultedTo t .stackOverflow)

/-- R152: `READ_MEM` pops the base, adds the low six bits of the offset exactly, checks the sum against `[0, N)`, and pushes
the unsigned byte there; it never writes data memory. The pop comes first. The exact sum, with no wrap, is the spec's own
choice (D12, R153, log entry 19), and so are the offset and the count of the record (D13, D14, log entry 16). -/
def Obligations.ReadMemPushesTheAddressedByte : Prop :=
  ∀ (o : Byte) (s : State), s.WithinCapacity →
    ((encode (.read o)).head? = some 0x87#8 ∧ (encode (.read o)).length = 2) ∧
    (s.stack = [] → ∃ t, exec (.read o) s = .next t ∧ s.FaultedTo t .stackUnderflow) ∧
    (∀ (below : List Int) (base : Int), s.stack = below ++ [base] →
      (¬ (0 ≤ base + ((o.toNat % 64 : Nat) : Int) ∧ base + ((o.toNat % 64 : Nat) : Int) < s.params.dataMemSize) →
        ∃ t, exec (.read o) s = .next t ∧ s.FaultedTo t .invalidAddress) ∧
      (∀ a : Nat, (a : Int) = base + ((o.toNat % 64 : Nat) : Int) → a < s.params.dataMemSize →
        ∃ t, exec (.read o) s = .next t ∧ s.CompletedTo t 2 ∧
          t.stack = below ++ [((s.dmem.read a).toNat : Int)] ∧ t.dmem = s.dmem))

/-- R154: `WRITE_MEM` pops the value and stores it modulo 256 in the cell its operand names, and only there; the pop comes
before the address check, and an error writes no cell. The byte of a negative value is presumed (R155, log entry 9). The pop
before the check is the spec's own choice (D23, log entry 8), and so are the offset and the count of the record (D13, D14,
log entry 16). -/
def Obligations.WriteMemStoresTheLowByte : Prop :=
  ∀ (a : Word) (s : State), Memory.wf s.dmem →
    ((encode (.write a)).head? = some 0xD5#8 ∧ (encode (.write a)).length = 5) ∧
    (s.stack = [] → ∃ t, exec (.write a) s = .next t ∧ s.FaultedTo t .stackUnderflow) ∧
    (∀ (below : List Int) (value : Int), s.stack = below ++ [value] →
      (s.params.dataMemSize ≤ a.toNat → ∃ t, exec (.write a) s = .next t ∧ s.FaultedTo t .invalidAddress) ∧
      (a.toNat < s.params.dataMemSize →
        ∃ t, exec (.write a) s = .next t ∧ s.CompletedTo t 5 ∧ t.stack = below ∧
          ((t.dmem.read a.toNat).toNat : Int) = value % 256 ∧
          (∀ b, b ≠ a.toNat → t.dmem.read b = s.dmem.read b)))

/-- R156: `SGN` pops an address, checks it with no offset, and pushes the sign of the cell's two's-complement byte; it
never writes data memory. The pop comes first. The two's-complement formula is presumed by the spec (R17, log entry 9). The
offset and the count of the record are the spec's own choices (D13, D14, log entry 16). -/
def Obligations.SgnPushesTheSignOfTheByte : Prop :=
  ∀ s : State, s.WithinCapacity →
    encode .sgn = [0x9A#8] ∧
    (s.stack = [] → ∃ t, exec .sgn s = .next t ∧ s.FaultedTo t .stackUnderflow) ∧
    (∀ (below : List Int) (top : Int), s.stack = below ++ [top] →
      (¬ (0 ≤ top ∧ top < s.params.dataMemSize) → ∃ t, exec .sgn s = .next t ∧ s.FaultedTo t .invalidAddress) ∧
      (∀ a : Nat, (a : Int) = top → a < s.params.dataMemSize →
        ∃ t, exec .sgn s = .next t ∧ s.CompletedTo t 1 ∧
          t.stack = below ++ [Int.sign (s.dmem.read a).toInt] ∧ t.dmem = s.dmem))

/-- R157: the sign over the whole byte range, by the three ranges of the rule, on the stack that `SGN` leaves.
The two's-complement formula the ranges follow from is presumed by the spec (R17, log entry 9). -/
def Obligations.SignFollowsTheThreeByteRanges : Prop :=
  ∀ (s : State) (below : List Int) (a : Nat), s.WithinCapacity → s.stack = below ++ [(a : Int)] →
    a < s.params.dataMemSize →
    ∃ t r, exec .sgn s = .next t ∧ t.stack = below ++ [r] ∧
      ((s.dmem.read a).toNat = 0 → r = 0) ∧
      (1 ≤ (s.dmem.read a).toNat → (s.dmem.read a).toNat ≤ 127 → r = 1) ∧
      (128 ≤ (s.dmem.read a).toNat → r = -1)

/-- R85: every offset byte decodes, two bytes that agree in bits 5:0 execute alike in every state, and the encoder never sets
bits 7:6. -/
def Obligations.ReservedOffsetBitsAreIgnored : Prop :=
  (∀ (o : Byte) (rest : List Byte), decodeBytes (0x87#8 :: o :: rest) = .ok (.read o) 2) ∧
  (∀ (o p : Byte) (s : State), o.toNat % 64 = p.toNat % 64 → exec (.read o) s = exec (.read p) s) ∧
  (∀ (policy : SgnOperandPolicy) (x : SymInstr) (o : Byte),
    encodeSymbolic policy x = .ok [0x87#8, o] → o.toNat < 64)

/-- R160, §8 "Stack discipline": on an empty stack the three popping instructions raise `StackUnderflow`, whatever the
address would be, and leave data memory alone. The order is the spec's reading of the source's prose (D23, log entry 8), and
the offset and the count of the record are its own choices too (D13, D14, log entry 16). -/
def Obligations.EmptyStackUnderflowsFirst : Prop :=
  ∀ (i : Instr) (s : State), s.stack = [] → (∀ v, i ≠ .load v) →
    ∃ t, exec i s = .next t ∧ s.FaultedTo t .stackUnderflow

/-- R149: from a stack within its capacity, only `LOAD_CONST` can raise `StackOverflow`, and only when a capacity is set.
The error and the capacity are the spec's own (D10, log entry 22). -/
def Obligations.OnlyLoadConstCanOverflow : Prop :=
  ∀ (i : Instr) (s t : State), s.WithinCapacity → exec i s = .next t → s.FaultedTo t .stackOverflow →
    (∃ v, i = .load v) ∧ s.params.stackCapacity = some s.stack.length

/-- R9: with no data memory, every instruction that reaches data memory fails, with `InvalidAddress` once it has popped.
That `N = 0` is legal is the spec's own choice (D11, log entry 22), and so are the offset and the count of the record (D13,
D14, log entry 16). -/
def Obligations.NoDataMemoryFailsEveryAccess : Prop :=
  ∀ (i : Instr) (s : State), s.params.dataMemSize = 0 → s.stack ≠ [] → (∀ v, i ≠ .load v) →
    ∃ t, exec i s = .next t ∧ s.FaultedTo t .invalidAddress

/-- R69, R220: a `READ_MEM` or `SGN` right after a `WRITE_MEM` to its address sees the byte just written: the
value modulo 256, and the sign of that byte (R152, R154, R156). For a negative value both are presumed (R155, log entry 9),
and the exact sum that gives the read's address is the spec's own choice (D12, log entry 19). -/
def Obligations.ReadSeesTheByteJustWritten : Prop :=
  ∀ (s : State) (a : Word) (o : Byte) (below : List Int) (base value : Int),
    Memory.wf s.dmem → s.WithinCapacity → s.stack = below ++ [base, value] → a.toNat < s.params.dataMemSize →
    ∃ t, exec (.write a) s = .next t ∧
      (base + ((o.toNat % 64 : Nat) : Int) = (a.toNat : Int) →
        ∃ u, exec (.read o) t = .next u ∧ u.stack = below ++ [value % 256]) ∧
      (base = (a.toNat : Int) →
        ∃ u, exec .sgn t = .next u ∧ u.stack = below ++ [Int.sign (BitVec.ofInt 8 value).toInt])

/-- R62, R66: over all instructions, only `WRITE_MEM` changes data memory, only in its own cell, and never a cell at `N` or
above. -/
def Obligations.OnlyWriteMemChangesDataMemory : Prop :=
  ∀ (i : Instr) (s t : State), exec i s = .next t →
    ((∀ a, i ≠ .write a) → t.dmem = s.dmem) ∧
    (∀ a, i = .write a → ∀ b, b ≠ a.toNat → t.dmem.read b = s.dmem.read b) ∧
    (∀ b, s.params.dataMemSize ≤ b → t.dmem.read b = s.dmem.read b)

/-- R36, R44: what an instruction does to the stack and to data memory, and whether and how it fails, depends on the stack,
data memory and the parameters alone: not on `ip`, `count`, `status`, `err` or the program. -/
def Obligations.ResultsDependOnStackAndMemoryAlone : Prop :=
  ∀ (i : Instr) (s s' t t' : State), s.stack = s'.stack → s.dmem = s'.dmem → s.params = s'.params →
    exec i s = .next t → exec i s' = .next t' →
    (t.status = .faulted ↔ t'.status = .faulted) ∧ t.dmem = t'.dmem ∧
    (t.status ≠ .faulted → t.stack = t'.stack) ∧
    (t.status = .faulted → t.err.map ErrorRecord.kind = t'.err.map ErrorRecord.kind)

/-- R37, whole: the program is the loaded buffer, no step writes it, and only fetch reads it: an instruction run on another
program of the same length does the same, but for the program it keeps. Data memory is another space: writing it leaves the
program alone. -/
def Obligations.CodeMemoryIsReadOnly : Prop :=
  (∀ (code : List Byte) (p : Params),
    (State.construct code p).code = code ∧ (State.construct code p).code.length = code.length) ∧
  (∀ s t : State, step s = .next t → t.code = s.code) ∧
  (∀ (i : Instr) (s t : State) (code' : List Byte), code'.length = s.code.length → exec i s = .next t →
    t.code = s.code ∧ exec i { s with code := code' } = .next { t with code := code' })

/-- R47: no step changes a parameter of the run. That the parameters stand in State is the model's choice (log entry 1). -/
def Obligations.NoStepChangesTheParameters : Prop :=
  ∀ s t : State, step s = .next t → t.params = s.params

/-! ### The step -/

/-- R131: where the bytes at `ip` decode to an instruction, a step of a run that has not ended is that instruction's
meaning. Nothing is added around it: the meaning itself moves `ip`, counts and sets the run state. -/
def Obligations.StepRunsTheDecodedInstruction : Prop :=
  ∀ (s : State) (i : Instr) (n : Nat), s.Active → decode s.code s.ip = .ok i n → step s = exec i s

/-- A table word placed where the next step fetches is the instruction that step runs, whatever the state: the model's stand-in
for the host's load of a program (R212, log entries 2 and 14). -/
def Obligations.PlacedWordIsTheNextInstruction : Prop :=
  ∀ (s : State) (nbits w : Nat) (i : Instr), decodeTableWord nbits w = some i →
    decode (s.withFetchWord nbits w).code (s.withFetchWord nbits w).ip = .ok i i.size ∧
    step (s.withFetchWord nbits w) = exec i (s.withFetchWord nbits w)

/-- R133: the opcode's value alone selects the instruction; its operand is read from the next 4, 1 or 0 bytes as data;
too few bytes raise `TruncatedInstruction` before any stack or memory access, so whatever the stack holds; any other opcode
raises `IllegalOpcode`. The offset and the count of the record are the spec's own choices (D13, D14, log entry 16). -/
def Obligations.DispatchAndOperandRead : Prop :=
  ∀ (s : State) (op : Byte), s.Active → s.code[s.ip]? = some op →
    (op = 74#8 →
      (s.code.length - (s.ip + 1) < 4 → ∃ t, step s = .next t ∧ s.FaultedTo t .truncatedInstruction) ∧
      (4 ≤ s.code.length - (s.ip + 1) → ∃ v : Word, v.toNat = le32At s.code (s.ip + 1) ∧ step s = exec (.load v) s)) ∧
    (op = 135#8 →
      (s.code.length - (s.ip + 1) < 1 → ∃ t, step s = .next t ∧ s.FaultedTo t .truncatedInstruction) ∧
      (∀ b, s.code[s.ip + 1]? = some b → step s = exec (.read b) s)) ∧
    (op = 213#8 →
      (s.code.length - (s.ip + 1) < 4 → ∃ t, step s = .next t ∧ s.FaultedTo t .truncatedInstruction) ∧
      (4 ≤ s.code.length - (s.ip + 1) → ∃ a : Word, a.toNat = le32At s.code (s.ip + 1) ∧ step s = exec (.write a) s)) ∧
    (op = 154#8 → step s = exec .sgn s) ∧
    (op ≠ 74#8 → op ≠ 135#8 → op ≠ 213#8 → op ≠ 154#8 →
      ∃ t, step s = .next t ∧ s.FaultedTo t .illegalOpcode) ∧
    (∀ i t, (exec i s = .next t → t.status ≠ .faulted → t.ip = s.ip + i.size))

/-- R130, R192, R194: the run state changes only as the table of R130 shows. A run that has not ended always has a next
state, on any bytes and any stack; a run that has ended has none. `Faulted` and the empty program's halt are the spec's own
choices (D15, D16, log entries 4 and 15), and so are the offset and the count of the record (D13, D14, log entry 16). -/
def Obligations.RunStateChangesByTheTable : Prop :=
  (∀ s : State, s.Active → ∃ t, step s = .next t ∧
    ((s.code.length ≤ s.ip ∧ t.status = .halted ∧ t.count = s.count ∧ t.stack = s.stack ∧ t.dmem = s.dmem ∧ t.ip = s.ip) ∨
     (s.ip < s.code.length ∧ t.count = s.count + 1 ∧ t.ip < s.code.length ∧ t.status = .running) ∨
     (s.ip < s.code.length ∧ t.count = s.count + 1 ∧ t.ip = s.code.length ∧ t.status = .halted) ∨
     (s.ip < s.code.length ∧ ∃ kind, s.FaultedTo t kind))) ∧
  (∀ s : State, s.status = .halted ∨ s.status = .faulted → ∀ t, step s ≠ .next t)

/-- R134: an instruction that completes moves `ip` by its size, 1, 2 or 5, and never past the program. -/
def Obligations.CompletedStepsAdvanceBySize : Prop :=
  ∀ s t : State, s.ip < s.code.length → step s = .next t → t.status ≠ .faulted →
    ∃ i, decode s.code s.ip = .ok i i.size ∧ exec i s = .next t ∧ s.CompletedTo t i.size ∧
      (i.size = 1 ∨ i.size = 2 ∨ i.size = 5) ∧ t.ip ≤ s.code.length

/-- R185, R189, R190: whatever the error, a faulted step records the kind with the instruction's starting offset and the
count of completed instructions, leaves `ip` there, and leaves data memory as it was. The stack of a faulted run is not read
(R190, log entry 5). Offset, count and `Faulted` are the spec's own choices (D13 to D15, log entry 16). -/
def Obligations.EveryErrorIsPrecise : Prop :=
  ∀ s t : State, step s = .next t → t.status = .faulted → ∃ kind, s.FaultedTo t kind

/-! ### Reset and the invariant -/

/-- R45, R210: what construction leaves, for every program and every parameters; every cell of data memory holds 0; and the
model's reset is construction with the defaults of R9 and R10 and no program (the model's choice, log entry 2). -/
def Obligations.ConstructionGivesTheResetValues : Prop :=
  (∀ (code : List Byte) (p : Params),
    (State.construct code p).code = code ∧ (State.construct code p).ip = 0 ∧ (State.construct code p).stack = [] ∧
    (∀ a, (State.construct code p).dmem.read a = 0#8) ∧ (State.construct code p).status = .ready ∧
    (State.construct code p).count = 0 ∧ (State.construct code p).err = none ∧ (State.construct code p).params = p) ∧
  State.reset = State.construct [] { dataMemSize := 1024, stackCapacity := none }

/-- The invariant holds at reset, after construction, and after a launch from any data-memory image (R45, R213; the
launch is the spec's own choice, D17, log entry 18). -/
def Obligations.ConstructionMeetsTheInvariant : Prop :=
  State.reset.Inv ∧ (∀ (code : List Byte) (p : Params), (State.construct code p).Inv) ∧
  (∀ (code : List Byte) (p : Params) (image : List Byte), (State.launch code p image).Inv)

/-- From every state that meets the invariant, a step gives a state that meets it: `ip` in `[0, L]`, data memory canonical
and below `N`, stack entries in `[-1, 2^32 - 1]` and within the capacity, and the run state, `ip`, `count` and error record
in agreement (R34, R35, R38, R39, R41). That data memory is a canonical list is the model's choice (log entry 12); that a
faulted run's record holds the state's own `ip` and `count` is the spec's own (D13 to D15, log entry 16), as are the capacity
(D10, log entry 22) and the state `Faulted`. -/
def Obligations.EveryStepKeepsTheInvariant : Prop :=
  ∀ s t : State, s.Inv → step s = .next t → t.Inv

/-! ### Runs -/

/-- R137: from any state of a run that has not ended, the run ends, in at most as many steps as bytes are left (one, where
none is). -/
def Obligations.EveryRunEnds : Prop :=
  ∀ s : State, s.Active → ∃ k t, 1 ≤ k ∧ k ≤ max 1 (s.code.length - s.ip) ∧ steps k s = some t ∧ t.ended = true

/-- R138: a run of a well-formed program halts with as many instructions counted as it has, or faults in one of them, with an
error of execution and not of decoding, at that instruction's start (D13, D14, log entry 16). -/
def Obligations.WellFormedRunCountsItsInstructions : Prop :=
  ∀ (code : List Byte) (p : Params) (is : List Instr) (k : Nat) (t : State), decodeProgram code = some is →
    steps k (State.construct code p) = some t →
    (t.status = .halted → t.count = is.length) ∧
    (t.status = .faulted → t.count < is.length ∧ ∃ kind, t.err = some ⟨kind, startOffset is t.count, t.count⟩ ∧
      kind ≠ .illegalOpcode ∧ kind ≠ .truncatedInstruction)

/-- R111: a run of what the encoder emitted never raises an error of decoding, and if it halts it has counted one instruction
for each symbolic one (R138). The kind `StackOverflow` is the spec's own choice (D10, R149, log entry 22), and so is the count
of a faulted run (D14, log entry 16). -/
def Obligations.EncodedProgramNeverFailsToDecode : Prop :=
  ∀ (policy : SgnOperandPolicy) (xs : List SymInstr) (code : List Byte) (p : Params),
    encodeProgram policy xs = .ok code →
    (∃ stack dmem, run code p = .halted stack dmem xs.length) ∨
    (∃ kind offset n, run code p = .faulted kind offset n ∧ n < xs.length ∧
      (kind = .stackUnderflow ∨ kind = .invalidAddress ∨ kind = .stackOverflow))

/-- R139: where complete instructions are followed by the first bytes of a truncated one, a run that gets past the complete
ones raises `TruncatedInstruction` at the truncated one's start, and no run halts (D13, D14, log entry 16). -/
def Obligations.TruncatedTailFaultsAtItsStart : Prop :=
  ∀ (is : List Instr) (tail : List Byte) (p : Params), tail ≠ [] → decodeBytes tail = .truncatedInstruction →
    ∃ kind offset n, run (encodeAll is ++ tail) p = .faulted kind offset n ∧ n ≤ is.length ∧
      (n = is.length → kind = .truncatedInstruction ∧ offset = (encodeAll is).length) ∧
      (n < is.length → kind ≠ .truncatedInstruction ∧ kind ≠ .illegalOpcode ∧ offset = startOffset is n)

/-- R213: every data-memory image is what the reset state reaches by running the image's prefix of `load` and `write` pairs
before the program, with the stack empty again, when `N ≤ 2^32` (and the stack may hold one entry). The launch is the
spec's own choice (D17, log entry 18). -/
def Obligations.EveryImageIsReachedFromReset : Prop :=
  ∀ (code : List Byte) (p : Params) (image : List Byte), p.dataMemSize ≤ 2 ^ 32 → p.stackCapacity ≠ some 0 →
    ∃ t, steps (2 * (State.launch code p image).dmem.length)
        (State.construct (encodeAll (imagePrefix (State.launch code p image).dmem) ++ code) p) = some t ∧
      t.stack = [] ∧ t.dmem = (State.launch code p image).dmem ∧
      t.ip = (encodeAll (imagePrefix (State.launch code p image).dmem)).length ∧
      t.count = 2 * (State.launch code p image).dmem.length ∧ t.err = none

/-- R218: a limit of at least `L` never fires, and gives the result of the unlimited run. The limit's result is the spec's own choice
(D24, log entry 15). -/
def Obligations.LimitOfProgramLengthNeverFires : Prop :=
  ∀ (limit : Nat) (code : List Byte) (p : Params), code.length ≤ limit →
    runLimited limit code p = run code p ∧ runLimited limit code p ≠ .limitReached

/-- R136: the run of any program, with any parameters, is what the host gets from the state that its steps end in: the halted
state's stack, data memory and count, or the faulted state's record. `Faulted` and what it shows are the spec's own choice
(D15, log entry 5). -/
def Obligations.RunIsTheResultOfItsSteps : Prop :=
  ∀ (code : List Byte) (p : Params), ∃ k t,
    steps k (State.construct code p) = some t ∧ t.ended = true ∧ run code p = t.result ∧
    ((t.status = .halted ∧
        run code p = .halted t.stack (t.dmem.bytesFrom 0 p.dataMemSize) t.count) ∨
     (t.status = .faulted ∧ ∃ r, t.err = some r ∧ run code p = .faulted r.kind r.offset r.count))

/-- R218: a limit is reached exactly where the run has completed that many instructions, has not ended and has bytes left; a
limit that is not reached leaves the result of the unlimited run. What a reached limit gives is the spec's own choice (D24,
log entry 15). -/
def Obligations.LimitOnlyCutsRunsShort : Prop :=
  ∀ (limit : Nat) (code : List Byte) (p : Params),
    (runLimited limit code p = .limitReached ↔
      ∃ t, steps limit (State.construct code p) = some t ∧ t.Active ∧ t.count = limit ∧ t.ip < code.length) ∧
    (runLimited limit code p ≠ .limitReached → runLimited limit code p = run code p)

/-! ### The host interface -/

/-- R213: a launch is construction but for data memory, whose cells below `N` hold the image's bytes, and 0 past the image's
end; no address at `N` or above is set. The launch is the spec's own choice (D17), and how a list of bytes gives the image is
the model's (log entry 18). -/
def Obligations.LaunchHoldsItsImage : Prop :=
  ∀ (code : List Byte) (p : Params) (image : List Byte),
    (∀ a, a < p.dataMemSize → (State.launch code p image).dmem.read a = image.getD a 0#8) ∧
    (∀ a, p.dataMemSize ≤ a → (State.launch code p image).dmem.read a = 0#8) ∧
    { State.launch code p image with dmem := [] } = State.construct code p

/-- R216: a halted run shows the whole stack, bottom to top, and all `N` bytes of data memory; a faulted run shows its error
record alone (D15, log entry 5). -/
def Obligations.EndedRunShowsItsOutputs : Prop :=
  ∀ s : State,
    (s.status = .halted → ∃ bytes, s.result = .halted s.stack bytes s.count ∧ bytes.length = s.params.dataMemSize ∧
      ∀ a, a < s.params.dataMemSize → bytes[a]? = some (s.dmem.read a)) ∧
    (∀ r, s.status = .faulted → s.err = some r → s.result = .faulted r.kind r.offset r.count)

/-- R217: inspection of a halted run answers the bytes of an inclusive range that lies within `[0, N)`, and `InvalidRange`
for any other; of a run that did not halt it is refused (R216). The inclusive end is the spec's reading (D18, log entry 11). -/
def Obligations.InspectionIsInclusiveAndChecked : Prop :=
  (∀ (s : State) (first last : Int), s.status = .halted →
    ((0 ≤ first ∧ first ≤ last ∧ last < s.params.dataMemSize) →
      ∃ bytes, inspect s first last = .bytes bytes ∧ (bytes.length : Int) = last - first + 1 ∧
        ∀ k, k < bytes.length → bytes[k]? = some (s.dmem.read (first.toNat + k))) ∧
    (¬ (0 ≤ first ∧ first ≤ last ∧ last < s.params.dataMemSize) → inspect s first last = .error .invalidRange)) ∧
  (∀ (s : State) (first last : Int), s.status ≠ .halted → inspect s first last = .refused)
end

