-- ==== Sys2Proof/Laws/Decode.lean ====
section
/-! SUPPORT. What decoding can answer, and the sizes of instructions. -/

namespace Sys2Proof

/-- Each answer of the decoder names the size of its instruction, and that many bytes were there. -/
theorem decodeBytes_ok {bs : List Byte} {i : Instr} {n : Nat} (h : decodeBytes bs = .ok i n) :
    n = i.size ∧ n ≤ bs.length ∧ bs.head? = some i.opcode := by
  cases bs with
  | nil => simp [decodeBytes] at h
  | cons op rest =>
    simp only [decodeBytes] at h
    split at h
    · rename_i hop
      rcases rest with _ | ⟨b0, _ | ⟨b1, _ | ⟨b2, _ | ⟨b3, rest⟩⟩⟩⟩ <;> simp [decodeU32] at h
      obtain ⟨rfl, rfl⟩ := h
      simp [Instr.size, Instr.opcode, hop]
    · split at h
      · rename_i hop
        cases rest <;> simp [decodeU8] at h
        obtain ⟨rfl, rfl⟩ := h
        simp [Instr.size, Instr.opcode, hop]
      · split at h
        · rename_i hop
          rcases rest with _ | ⟨b0, _ | ⟨b1, _ | ⟨b2, _ | ⟨b3, rest⟩⟩⟩⟩ <;> simp [decodeU32] at h
          obtain ⟨rfl, rfl⟩ := h
          simp [Instr.size, Instr.opcode, hop]
        · split at h
          · rename_i hop
            simp at h
            obtain ⟨rfl, rfl⟩ := h
            simp [Instr.size, Instr.opcode, hop]
          · simp at h

theorem decode_ok {code : List Byte} {s : Nat} {i : Instr} {n : Nat} (h : decode code s = .ok i n) :
    n = i.size ∧ s + n ≤ code.length := by
  obtain ⟨h1, h2, -⟩ := decodeBytes_ok h
  rw [List.length_drop] at h2
  refine ⟨h1, ?_⟩
  have : 0 < i.size := by cases i <;> simp [Instr.size]
  omega

theorem size_pos (i : Instr) : 0 < i.size := by cases i <;> simp [Instr.size]

theorem encode_ne_nil (i : Instr) : encode i ≠ [] := by cases i <;> simp [encode]

/-- Assembling the bytes of a field gives the field back (R84). -/
theorem le32_wordBytes (v : Word) :
    le32 (v.extractLsb' 0 8) (v.extractLsb' 8 8) (v.extractLsb' 16 8) (v.extractLsb' 24 8) = v := by
  have := v.isLt
  apply BitVec.eq_of_toNat_eq
  simp only [le32, BitVec.toNat_ofNat, BitVec.extractLsb'_toNat, Nat.shiftRight_eq_div_pow]
  omega

/-- The value of an assembled field is the sum of R16. -/
theorem le32_toNat (b0 b1 b2 b3 : Byte) :
    (le32 b0 b1 b2 b3).toNat = b0.toNat + 256 * b1.toNat + 65536 * b2.toNat + 16777216 * b3.toNat := by
  have := b0.isLt; have := b1.isLt; have := b2.isLt; have := b3.isLt
  simp only [le32, BitVec.toNat_ofNat]
  omega

/-- The value of an assembled field has the bytes it came from. -/
theorem wordBytes_le32 (b0 b1 b2 b3 : Byte) : wordBytes (le32 b0 b1 b2 b3) = [b0, b1, b2, b3] := by
  have := b0.isLt; have := b1.isLt; have := b2.isLt; have := b3.isLt
  simp only [wordBytes, List.cons.injEq, and_true]
  refine ⟨?_, ?_, ?_, ?_⟩ <;>
  · apply BitVec.eq_of_toNat_eq
    simp only [BitVec.extractLsb'_toNat, Nat.shiftRight_eq_div_pow, le32_toNat]
    omega

end Sys2Proof
end

