-- ==== Sys2Proof/Laws/Encoder.lean ====
section
/-! SUPPORT. What the encoder's operand checks can answer, and the encoder's loop unfolded once. -/

namespace Sys2Proof.Machine

/-- The operand of `load` and `write` is missing, out of range, or a value encoded exactly (R103, R105). -/
theorem operandU32_cases (o : Option Int) :
    (o = none ∧ operandU32 o = .error .missingOperand) ∨
    (∃ v, o = some v ∧ (v < 0 ∨ 2 ^ 32 - 1 < v) ∧ operandU32 o = .error .operandOutOfRange) ∨
    (∃ v : Nat, v < 2 ^ 32 ∧ o = some (v : Int) ∧ operandU32 o = .ok (BitVec.ofNat 32 v)) := by
  rcases o with _ | v
  · simp [operandU32]
  · by_cases h : v < 0 ∨ v > 2 ^ 32 - 1
    · exact .inr (.inl ⟨v, rfl, by omega, by simp only [operandU32, if_pos h]⟩)
    · exact .inr (.inr ⟨v.toNat, by omega, by congr; omega, by simp only [operandU32, if_neg h]⟩)

/-- The operand of `read` is missing, out of range, or an offset encoded exactly (R104). -/
theorem operandOffset_cases (o : Option Int) :
    (o = none ∧ operandOffset o = .error .missingOperand) ∨
    (∃ v, o = some v ∧ (v < 0 ∨ 63 < v) ∧ operandOffset o = .error .operandOutOfRange) ∨
    (∃ v : Nat, v ≤ 63 ∧ o = some (v : Int) ∧ operandOffset o = .ok (BitVec.ofNat 8 v)) := by
  rcases o with _ | v
  · simp [operandOffset]
  · by_cases h : v > 63 ∨ v < 0
    · exact .inr (.inl ⟨v, rfl, by omega, by simp only [operandOffset, if_pos h]⟩)
    · exact .inr (.inr ⟨v.toNat, by omega, by congr; omega, by simp only [operandOffset, if_neg h]⟩)

/-- The encoder's loop takes one instruction and goes on with the rest (R108). -/
theorem encodeProgram_cons (policy : SgnOperandPolicy) (x : SymInstr) (xs : List SymInstr) :
    encodeProgram policy (x :: xs) =
      match encodeSymbolic policy x with
      | .error e => .error e
      | .ok b => (encodeProgram policy xs).map (b ++ ·) := by
  simp only [encodeProgram, bind, Except.bind, pure, Except.pure]
  cases encodeSymbolic policy x <;> simp
  cases encodeProgram policy xs <;> rfl

end Sys2Proof.Machine
end

