-- ==== Sys2Proof/Laws/Ops.lean ====
section
/-! SUPPORT. What the shared operations can answer, once: push, pop, the address check, and the operand arithmetic. -/

namespace Sys2Proof.Machine

/-! ### The stack -/

@[simp] theorem push_unbounded (st : List Int) (v : Int) : push none st v = .ok (st ++ [v]) := rfl

theorem push_of_not_full {cap : Option Nat} {st : List Int} (v : Int) (h : cap ≠ some st.length) :
    push cap st v = .ok (st ++ [v]) := by
  cases cap with
  | none => rfl
  | some k => simp only [ne_eq, Option.some.injEq] at h; simp [push, Ne.symm h]

theorem push_of_full {cap : Option Nat} {st : List Int} (v : Int) (h : cap = some st.length) :
    push cap st v = .error .stackOverflow := by
  subst h; simp [push]

theorem push_cases (cap : Option Nat) (st : List Int) (v : Int) :
    (cap ≠ some st.length ∧ push cap st v = .ok (st ++ [v])) ∨
    (cap = some st.length ∧ push cap st v = .error .stackOverflow) := by
  by_cases h : cap = some st.length
  · exact .inr ⟨h, push_of_full v h⟩
  · exact .inl ⟨h, push_of_not_full v h⟩

@[simp] theorem pop_nil : pop [] = .error .stackUnderflow := rfl

@[simp] theorem pop_append (st : List Int) (v : Int) : pop (st ++ [v]) = .ok (v, st) := by
  simp [pop]

theorem pop_cases (st : List Int) :
    (st = [] ∧ pop st = .error .stackUnderflow) ∨ (∃ below v, st = below ++ [v] ∧ pop st = .ok (v, below)) := by
  rcases List.eq_nil_or_concat st with rfl | ⟨below, v, h⟩
  · exact .inl ⟨rfl, rfl⟩
  · rw [List.concat_eq_append] at h
    exact .inr ⟨below, v, h, by rw [h, pop_append]⟩

/-! ### The address check (R63) -/

theorem inBounds_iff {n : Nat} {a : Int} : inBounds n a = true ↔ 0 ≤ a ∧ a < (n : Int) := by
  simp [inBounds]

theorem checkAddress_ok {n : Nat} {a : Int} (h : 0 ≤ a ∧ a < (n : Int)) : checkAddress n a = .ok a.toNat := by
  simp [checkAddress, inBounds_iff.2 h]

theorem checkAddress_error {n : Nat} {a : Int} (h : ¬ (0 ≤ a ∧ a < (n : Int))) :
    checkAddress n a = .error .invalidAddress := by
  unfold checkAddress; rw [if_neg (fun hb => h (inBounds_iff.1 hb))]

theorem checkAddress_cases (n : Nat) (a : Int) :
    (0 ≤ a ∧ a < (n : Int) ∧ checkAddress n a = .ok a.toNat) ∨
    (¬ (0 ≤ a ∧ a < (n : Int)) ∧ checkAddress n a = .error .invalidAddress) := by
  by_cases h : 0 ≤ a ∧ a < (n : Int)
  · exact .inl ⟨h.1, h.2, checkAddress_ok h⟩
  · exact .inr ⟨h, checkAddress_error h⟩

/-! ### Operand arithmetic -/

theorem effectiveOffset_eq_mod (o : Byte) : effectiveOffset o = o.toNat % 64 := by
  unfold effectiveOffset
  rw [BitVec.toNat_and]
  exact Nat.and_two_pow_sub_one_eq_mod o.toNat 6

theorem effectiveOffset_masked (o : Byte) : effectiveOffset (o &&& 0x3F#8) = effectiveOffset o := by
  simp [effectiveOffset, BitVec.and_assoc]

theorem storedByte_toNat (v : Int) : ((storedByte v).toNat : Int) = v % 256 := by
  have := Int.emod_nonneg v (b := 256) (by omega)
  have := Int.emod_lt_of_pos v (b := 256) (by omega)
  simp only [storedByte, BitVec.toNat_ofNat]
  omega

theorem sext8_eq_toInt (b : Byte) : sext8 b = b.toInt := by
  have := b.isLt
  unfold sext8
  rw [BitVec.toInt_eq_toNat_cond]
  split <;> split <;> omega

theorem signOf_range (v : Int) : -1 ≤ signOf v ∧ signOf v ≤ 1 := by
  unfold signOf; split <;> (try split) <;> omega

theorem byteValue_range (b : Byte) : 0 ≤ byteValue b ∧ byteValue b ≤ 255 := by
  have := b.isLt; unfold byteValue; omega

theorem constantValue_range (w : Word) : 0 ≤ constantValue w ∧ constantValue w ≤ 2 ^ 32 - 1 := by
  have := w.isLt; unfold constantValue; omega

end Sys2Proof.Machine
end

