-- ==== Sys2Proof/Laws/State.lean ====
section
/-! SUPPORT. One lemma per field for each update of the state: completion, an error, the halt at the end of the program, and
the fields of a freshly constructed state. -/

namespace Sys2Proof.Machine

section Complete
variable (s : State) (n : Nat) (w : Work)
@[simp] theorem complete_code : (s.complete n w).code = s.code := rfl
@[simp] theorem complete_ip : (s.complete n w).ip = s.ip + n := rfl
@[simp] theorem complete_stack : (s.complete n w).stack = w.stack := rfl
@[simp] theorem complete_dmem : (s.complete n w).dmem = w.dmem := rfl
@[simp] theorem complete_status : (s.complete n w).status = statusAt s.code.length (s.ip + n) := rfl
@[simp] theorem complete_count : (s.complete n w).count = s.count + 1 := rfl
@[simp] theorem complete_err : (s.complete n w).err = s.err := rfl
@[simp] theorem complete_params : (s.complete n w).params = s.params := rfl
end Complete

section TakeError
variable (s : State) (k : ErrorKind)
@[simp] theorem takeError_code : (s.takeError k).code = s.code := rfl
@[simp] theorem takeError_ip : (s.takeError k).ip = s.ip := rfl
@[simp] theorem takeError_stack : (s.takeError k).stack = s.stack := rfl
@[simp] theorem takeError_dmem : (s.takeError k).dmem = s.dmem := rfl
@[simp] theorem takeError_status : (s.takeError k).status = .faulted := rfl
@[simp] theorem takeError_count : (s.takeError k).count = s.count := rfl
@[simp] theorem takeError_err : (s.takeError k).err = some ⟨k, s.ip, s.count⟩ := rfl
@[simp] theorem takeError_params : (s.takeError k).params = s.params := rfl
end TakeError

section HaltAtEnd
variable (s : State)
@[simp] theorem haltAtEnd_code : s.haltAtEnd.code = s.code := rfl
@[simp] theorem haltAtEnd_ip : s.haltAtEnd.ip = s.ip := rfl
@[simp] theorem haltAtEnd_stack : s.haltAtEnd.stack = s.stack := rfl
@[simp] theorem haltAtEnd_dmem : s.haltAtEnd.dmem = s.dmem := rfl
@[simp] theorem haltAtEnd_status : s.haltAtEnd.status = .halted := rfl
@[simp] theorem haltAtEnd_count : s.haltAtEnd.count = s.count := rfl
@[simp] theorem haltAtEnd_err : s.haltAtEnd.err = s.err := rfl
@[simp] theorem haltAtEnd_params : s.haltAtEnd.params = s.params := rfl
end HaltAtEnd

section Construct
variable (code : List Byte) (p : Params)
@[simp] theorem construct_code : (State.construct code p).code = code := rfl
@[simp] theorem construct_ip : (State.construct code p).ip = 0 := rfl
@[simp] theorem construct_stack : (State.construct code p).stack = [] := rfl
@[simp] theorem construct_dmem : (State.construct code p).dmem = [] := rfl
@[simp] theorem construct_status : (State.construct code p).status = .ready := rfl
@[simp] theorem construct_count : (State.construct code p).count = 0 := rfl
@[simp] theorem construct_err : (State.construct code p).err = none := rfl
@[simp] theorem construct_params : (State.construct code p).params = p := rfl
end Construct

@[simp] theorem work_stack (s : State) : s.work.stack = s.stack := rfl
@[simp] theorem work_dmem (s : State) : s.work.dmem = s.dmem := rfl

@[simp] theorem settle_ok (s : State) (i : Instr) (w : Work) : s.settle i (.ok w) = s.complete i.size w := rfl
@[simp] theorem settle_error (s : State) (i : Instr) (k : ErrorKind) : s.settle i (.error k) = s.takeError k := rfl

theorem statusAt_ne_faulted (l p : Nat) : statusAt l p ≠ .faulted := by
  unfold statusAt; split <;> simp

theorem statusAt_ne_ready (l p : Nat) : statusAt l p ≠ .ready := by
  unfold statusAt; split <;> simp

/-- An answer that is not faulted is the completion of a working copy. -/
theorem settle_cases (s : State) (i : Instr) (e : Except ErrorKind Work) :
    (∃ w, e = .ok w ∧ s.settle i e = s.complete i.size w) ∨ (∃ k, e = .error k ∧ s.settle i e = s.takeError k) := by
  cases e with
  | ok w => exact .inl ⟨w, rfl, rfl⟩
  | error k => exact .inr ⟨k, rfl, rfl⟩

end Sys2Proof.Machine
end

