-- ==== Sys2Proof/Laws/Exec.lean ====
section
/-! SUPPORT. What the execute part of each instruction can answer, and what a step can do: each said once. -/

namespace Sys2Proof.Machine

theorem loadConst_cases (p : Params) (v : Word) (w : Work) :
    (p.stackCapacity ≠ some w.stack.length ∧
      loadConst p v w = .ok { w with stack := w.stack ++ [constantValue v] }) ∨
    (p.stackCapacity = some w.stack.length ∧ loadConst p v w = .error .stackOverflow) := by
  rcases push_cases p.stackCapacity w.stack (constantValue v) with ⟨h, e⟩ | ⟨h, e⟩
  · exact .inl ⟨h, by simp [loadConst, e, bind, Except.bind, pure, Except.pure]⟩
  · exact .inr ⟨h, by simp [loadConst, e, bind, Except.bind]⟩

theorem readMem_cases (p : Params) (o : Byte) (w : Work) :
    (w.stack = [] ∧ readMem p o w = .error .stackUnderflow) ∨
    (∃ (below : List Int) (base : Int), w.stack = below ++ [base] ∧
      ((¬ (0 ≤ baseOffsetAddress base o ∧ baseOffsetAddress base o < p.dataMemSize) ∧
          readMem p o w = .error .invalidAddress) ∨
       (0 ≤ baseOffsetAddress base o ∧ baseOffsetAddress base o < p.dataMemSize ∧
          ((p.stackCapacity = some below.length ∧ readMem p o w = .error .stackOverflow) ∨
           (p.stackCapacity ≠ some below.length ∧
             readMem p o w = .ok { w with
               stack := below ++ [byteValue (w.dmem.read (baseOffsetAddress base o).toNat)] }))))) := by
  rcases pop_cases w.stack with ⟨h, e⟩ | ⟨below, base, h, e⟩
  · exact .inl ⟨h, by simp [readMem, e, bind, Except.bind]⟩
  · refine .inr ⟨below, base, h, ?_⟩
    rcases checkAddress_cases p.dataMemSize (baseOffsetAddress base o) with ⟨h0, h1, ea⟩ | ⟨hn, ea⟩
    · refine .inr ⟨h0, h1, ?_⟩
      rcases push_cases p.stackCapacity below
        (byteValue (w.dmem.read (baseOffsetAddress base o).toNat)) with ⟨hp, ep⟩ | ⟨hp, ep⟩
      · exact .inr ⟨hp, by simp [readMem, e, ea, ep, bind, Except.bind, pure, Except.pure]⟩
      · exact .inl ⟨hp, by simp [readMem, e, ea, ep, bind, Except.bind]⟩
    · exact .inl ⟨hn, by simp [readMem, e, ea, bind, Except.bind]⟩

theorem writeMem_cases (p : Params) (a : Word) (w : Work) :
    (w.stack = [] ∧ writeMem p a w = .error .stackUnderflow) ∨
    (∃ (below : List Int) (value : Int), w.stack = below ++ [value] ∧
      ((p.dataMemSize ≤ a.toNat ∧ writeMem p a w = .error .invalidAddress) ∨
       (a.toNat < p.dataMemSize ∧
          writeMem p a w = .ok { stack := below, dmem := w.dmem.write a.toNat (storedByte value) }))) := by
  rcases pop_cases w.stack with ⟨h, e⟩ | ⟨below, value, h, e⟩
  · exact .inl ⟨h, by simp [writeMem, e, bind, Except.bind]⟩
  · refine .inr ⟨below, value, h, ?_⟩
    rcases checkAddress_cases p.dataMemSize (absoluteAddress a) with ⟨h0, h1, ea⟩ | ⟨hn, ea⟩
    · refine .inr ⟨by simpa [absoluteAddress] using h1, ?_⟩
      simp [writeMem, e, ea, bind, Except.bind, pure, Except.pure]
      simp [absoluteAddress]
    · refine .inl ⟨by simp only [absoluteAddress] at hn; omega, ?_⟩
      simp [writeMem, e, ea, bind, Except.bind]

theorem sgnMem_cases (p : Params) (w : Work) :
    (w.stack = [] ∧ sgnMem p w = .error .stackUnderflow) ∨
    (∃ (below : List Int) (top : Int), w.stack = below ++ [top] ∧
      ((¬ (0 ≤ top ∧ top < p.dataMemSize) ∧ sgnMem p w = .error .invalidAddress) ∨
       (0 ≤ top ∧ top < p.dataMemSize ∧
          ((p.stackCapacity = some below.length ∧ sgnMem p w = .error .stackOverflow) ∨
           (p.stackCapacity ≠ some below.length ∧
             sgnMem p w = .ok { w with stack := below ++ [signOf (sext8 (w.dmem.read top.toNat))] }))))) := by
  rcases pop_cases w.stack with ⟨h, e⟩ | ⟨below, top, h, e⟩
  · exact .inl ⟨h, by simp [sgnMem, e, bind, Except.bind]⟩
  · refine .inr ⟨below, top, h, ?_⟩
    rcases checkAddress_cases p.dataMemSize (stackAddress top) with ⟨h0, h1, ea⟩ | ⟨hn, ea⟩
    · refine .inr ⟨h0, h1, ?_⟩
      rcases push_cases p.stackCapacity below (signOf (sext8 (w.dmem.read top.toNat))) with ⟨hp, ep⟩ | ⟨hp, ep⟩
      · refine .inr ⟨hp, ?_⟩
        simp only [stackAddress] at ea
        simp [sgnMem, e, stackAddress, ea, ep, bind, Except.bind, pure, Except.pure]
      · refine .inl ⟨hp, ?_⟩
        simp only [stackAddress] at ea
        simp [sgnMem, e, stackAddress, ea, ep, bind, Except.bind]
    · refine .inl ⟨hn, ?_⟩
      simp [sgnMem, e, ea, bind, Except.bind]

/-- The execute part of an instruction, by constructor. -/
def executePart (p : Params) : Instr → Work → Except ErrorKind Work
  | .load v => loadConst p v
  | .read o => readMem p o
  | .write a => writeMem p a
  | .sgn => sgnMem p

/-- The meaning of an instruction is its execute part, settled. -/
theorem exec_eq_settle (i : Instr) (s : State) : exec i s = .next (s.settle i (executePart s.params i s.work)) := by
  cases i <;> rfl

/-- An instruction completes with what its execute part left, or takes the error that part raised. -/
theorem exec_cases (i : Instr) (s : State) :
    (∃ w, executePart s.params i s.work = .ok w ∧ exec i s = .next (s.complete i.size w)) ∨
    (∃ k, executePart s.params i s.work = .error k ∧ exec i s = .next (s.takeError k)) := by
  rw [exec_eq_settle]
  rcases settle_cases s i (executePart s.params i s.work) with ⟨w, e, h⟩ | ⟨k, e, h⟩
  · exact .inl ⟨w, e, by rw [h]⟩
  · exact .inr ⟨k, e, by rw [h]⟩

/-- The errors of an execute part: never an error of decoding. -/
theorem executePart_error {p : Params} {i : Instr} {w : Work} {k : ErrorKind} (h : executePart p i w = .error k) :
    k = .stackUnderflow ∨ k = .invalidAddress ∨ k = .stackOverflow := by
  cases i with
  | load v => rcases loadConst_cases p v w with ⟨-, e⟩ | ⟨-, e⟩ <;> (rw [executePart, e] at h; cases h); simp
  | read o =>
    rcases readMem_cases p o w with ⟨-, e⟩ | ⟨_, _, _, ⟨-, e⟩ | ⟨-, -, ⟨-, e⟩ | ⟨-, e⟩⟩⟩ <;>
      (rw [executePart, e] at h; cases h) <;> simp
  | write a =>
    rcases writeMem_cases p a w with ⟨-, e⟩ | ⟨_, _, _, ⟨-, e⟩ | ⟨-, e⟩⟩ <;>
      (rw [executePart, e] at h; cases h) <;> simp
  | sgn =>
    rcases sgnMem_cases p w with ⟨-, e⟩ | ⟨_, _, _, ⟨-, e⟩ | ⟨-, -, ⟨-, e⟩ | ⟨-, e⟩⟩⟩ <;>
      (rw [executePart, e] at h; cases h) <;> simp

/-- From a run that has not ended, a step halts at the end of the program, runs the decoded instruction, or takes the error
that fetch and decode found. -/
theorem step_cases {s : State} (h : s.status = .ready ∨ s.status = .running) :
    (s.code.length ≤ s.ip ∧ step s = .next s.haltAtEnd) ∨
    (s.ip < s.code.length ∧
      ((∃ i, decode s.code s.ip = .ok i i.size ∧ step s = exec i s) ∨
       (decode s.code s.ip = .illegalOpcode ∧ step s = .next (s.takeError .illegalOpcode)) ∨
       (decode s.code s.ip = .truncatedInstruction ∧ step s = .next (s.takeError .truncatedInstruction)))) := by
  have hs : step s = fetchDecodeExecute s := by rcases h with h | h <;> simp [step, cycle, h]
  rw [hs]
  unfold fetchDecodeExecute
  split
  · exact .inl ⟨‹_›, rfl⟩
  · refine .inr ⟨by omega, ?_⟩
    split
    · rename_i i n hd
      obtain ⟨rfl, -⟩ := decode_ok hd
      exact .inl ⟨i, hd, rfl⟩
    · exact .inr (.inl ⟨‹_›, rfl⟩)
    · exact .inr (.inr ⟨‹_›, rfl⟩)

/-- A run that has ended has no next state. -/
theorem step_ended {s : State} (h : s.status = .halted ∨ s.status = .faulted) (t : State) : step s ≠ .next t := by
  rcases h with h | h <;> simp [step, cycle, h]

end Sys2Proof.Machine
end

