-- ==== Sys2Proof/Laws/Memory.lean ====
section
/-! SUPPORT. The laws of data memory: a read after a write, and that every operation keeps the canonical form. -/

namespace Sys2Proof.Machine

@[simp] theorem read_nil (a : Nat) : Memory.read [] a = 0#8 := rfl

theorem read_cons (k : Nat) (b : Byte) (m : Memory) (a : Nat) :
    Memory.read ((k, b) :: m) a = if k = a then b else m.read a := rfl

theorem wf_nil : Memory.wf [] := by simp [Memory.wf]

theorem wf_cons {c : Host.Cell} {m : Memory} :
    Memory.wf (c :: m) ↔ (∀ d ∈ m, c.1 < d.1) ∧ c.2 ≠ 0#8 ∧ Memory.wf m := by
  simp only [Memory.wf, List.pairwise_cons, List.mem_cons, forall_eq_or_imp]; tauto

/-- An address that is not listed reads as 0. -/
theorem read_eq_zero_of_unlisted {m : Memory} {a : Nat} (h : ∀ c ∈ m, c.1 ≠ a) : m.read a = 0#8 := by
  induction m with
  | nil => rfl
  | cons c m ih =>
    obtain ⟨k, b⟩ := c
    rw [read_cons, if_neg (h (k, b) (by simp)), ih (fun c hc => h c (by simp [hc]))]

/-- A read after a write to the same cell gives the value written (R69). -/
theorem read_write_same {m : Memory} (hm : m.wf) (a : Nat) (v : Byte) : (m.write a v).read a = v := by
  induction m with
  | nil => by_cases hv : v = 0#8 <;> simp [Memory.write, Memory.read, hv]
  | cons c m ih =>
    obtain ⟨k, b⟩ := c
    obtain ⟨hlt, -, hwf⟩ := wf_cons.1 hm
    have above : a ≤ k → Memory.read m a = 0#8 := fun h =>
      read_eq_zero_of_unlisted fun d hd => by have := hlt d hd; simp only at this; omega
    unfold Memory.write
    split
    · rename_i h
      split
      · rename_i hv; rw [read_cons, if_neg (by omega), above h.le, hv]
      · simp [read_cons]
    · split
      · rename_i h
        split
        · rename_i hv; rw [above h.le, hv]
        · simp [read_cons]
      · rw [read_cons, if_neg (by omega), ih hwf]

/-- A write leaves every other cell alone. -/
theorem read_write_other (m : Memory) {a b : Nat} (v : Byte) (h : b ≠ a) : (m.write a v).read b = m.read b := by
  induction m with
  | nil => by_cases hv : v = 0#8 <;> simp [Memory.write, Memory.read, hv, h.symm]
  | cons c m ih =>
    obtain ⟨k, x⟩ := c
    unfold Memory.write
    split
    · split <;> simp [read_cons, h.symm]
    · split
      · rename_i hk
        subst hk
        split <;> simp [read_cons, h.symm]
      · simp [read_cons, ih]

/-- What a written memory lists: what it listed before, or the cell written. -/
theorem mem_write {m : Memory} {a : Nat} {v : Byte} {c : Host.Cell} (h : c ∈ m.write a v) : c ∈ m ∨ c = (a, v) := by
  induction m with
  | nil => by_cases hv : v = 0#8 <;> simp_all [Memory.write]
  | cons d m ih =>
    obtain ⟨k, x⟩ := d
    unfold Memory.write at h
    split at h
    · split at h
      · exact .inl h
      · rcases List.mem_cons.1 h with h | h
        · exact .inr h
        · exact .inl h
    · split at h
      · split at h
        · exact .inl (List.mem_cons_of_mem _ h)
        · rcases List.mem_cons.1 h with h | h
          · exact .inr h
          · exact .inl (List.mem_cons_of_mem _ h)
      · rcases List.mem_cons.1 h with h | h
        · simp [h]
        · rcases ih h with h | h <;> simp [h]

/-- A write keeps the canonical form. -/
theorem write_wf {m : Memory} (hm : m.wf) (a : Nat) (v : Byte) : (m.write a v).wf := by
  induction m with
  | nil => by_cases hv : v = 0#8 <;> simp [Memory.write, hv, Memory.wf]
  | cons c m ih =>
    obtain ⟨k, b⟩ := c
    obtain ⟨hlt, hb, hwf⟩ := wf_cons.1 hm
    unfold Memory.write
    split
    · rename_i h
      split
      · exact hm
      · rename_i hv
        refine wf_cons.2 ⟨fun d hd => ?_, hv, hm⟩
        rcases List.mem_cons.1 hd with rfl | hd
        · exact h
        · exact h.trans (hlt d hd)
    · split
      · rename_i h
        subst h
        split
        · exact hwf
        · rename_i hv; exact wf_cons.2 ⟨hlt, hv, hwf⟩
      · refine wf_cons.2 ⟨fun d hd => ?_, hb, ih hwf⟩
        rcases mem_write hd with hd | rfl
        · exact hlt d hd
        · show k < a; omega

/-- Everything a memory image lists lies in the image. -/
theorem mem_ofBytes {bs : List Byte} {a : Nat} {c : Host.Cell} (h : c ∈ Memory.ofBytes a bs) :
    a ≤ c.1 ∧ c.1 < a + bs.length := by
  induction bs generalizing a with
  | nil => simp [Memory.ofBytes] at h
  | cons b bs ih =>
    unfold Memory.ofBytes at h
    split at h
    · have := ih h; simp only [List.length_cons]; omega
    · rcases List.mem_cons.1 h with rfl | h
      · simp
      · have := ih h; simp only [List.length_cons]; omega

/-- A memory image is in canonical form. -/
theorem ofBytes_wf (a : Nat) (bs : List Byte) : (Memory.ofBytes a bs).wf := by
  induction bs generalizing a with
  | nil => exact wf_nil
  | cons b bs ih =>
    unfold Memory.ofBytes
    split
    · exact ih _
    · rename_i hb
      exact wf_cons.2 ⟨fun d hd => by have := mem_ofBytes hd; simp only; omega, hb, ih _⟩

/-- A memory image holds the image's bytes. -/
theorem read_ofBytes (a : Nat) (bs : List Byte) (k : Nat) :
    (Memory.ofBytes a bs).read (a + k) = bs.getD k 0#8 := by
  induction bs generalizing a k with
  | nil => simp [Memory.ofBytes]
  | cons b bs ih =>
    unfold Memory.ofBytes
    cases k with
    | zero =>
      split
      · rename_i hb
        rw [read_eq_zero_of_unlisted fun c hc => by have := mem_ofBytes hc; omega]
        simp [hb]
      · simp [read_cons]
    | succ k =>
      have h := ih (a + 1) k
      rw [show a + 1 + k = a + (k + 1) by omega] at h
      split
      · simpa using h
      · rw [read_cons, if_neg (by omega)]; simpa using h

@[simp] theorem bytesFrom_length (m : Memory) (a n : Nat) : (m.bytesFrom a n).length = n := by
  simp [Memory.bytesFrom]

theorem bytesFrom_get (m : Memory) (a : Nat) {n k : Nat} (h : k < n) :
    (m.bytesFrom a n)[k]? = some (m.read (a + k)) := by
  simp [Memory.bytesFrom, h]

end Sys2Proof.Machine
end

