-- ==== Sys2Proof/Laws/PerInstr.lean ====
section
/-! SUPPORT. Statements about the syntax of all instructions, one lemma per constructor. -/

namespace Sys2Proof.Laws.SizeByOpcode

/-- The bytes of an instruction are as many as its opcode alone says (R82, R109). -/
def Statement (i : Instr) : Prop := encodedSize i.opcode = some (encode i).length ∧ (encode i).length = i.size

theorem load (value : Word) : Statement (.load value) := by
  refine ⟨?_, rfl⟩
  show encodedSize opLoad = some 5
  decide
theorem read (off8 : Byte) : Statement (.read off8) := by
  refine ⟨?_, rfl⟩
  show encodedSize opRead = some 2
  decide
theorem write (address : Word) : Statement (.write address) := by
  refine ⟨?_, rfl⟩
  show encodedSize opWrite = some 5
  decide
theorem sgn : Statement .sgn := by
  refine ⟨?_, rfl⟩
  show encodedSize opSgn = some 1
  decide

end Sys2Proof.Laws.SizeByOpcode
end

