-- ==== Sys2Proof/Laws/Run.lean ====
section
/-! SUPPORT. Runs: one step more, and the induction over the steps of a run packaged once. -/

namespace Sys2Proof.Machine

@[simp] theorem steps_zero (s : State) : steps 0 s = some s := rfl

theorem steps_succ_of_next {s t : State} (h : step s = .next t) (k : Nat) : steps (k + 1) s = steps k t := by
  rw [steps, h]

/-- A longer run goes through a first step. -/
theorem steps_succ_some {s u : State} {k : Nat} (h : steps (k + 1) s = some u) :
    ∃ t, step s = .next t ∧ steps k t = some u := by
  rw [steps] at h
  split at h
  · exact ⟨_, ‹_›, h⟩
  · cases h
  · cases h

/-- What holds of a state and is kept by every step holds of every state its run passes through. -/
theorem steps_invariant {P : State → Prop} (hstep : ∀ s t, P s → step s = .next t → P t) {k : Nat} {s t : State}
    (hs : P s) (h : steps k s = some t) : P t := by
  induction k generalizing s with
  | zero => cases h; exact hs
  | succ k ih =>
    obtain ⟨u, hu, h⟩ := steps_succ_some h
    exact ih (hstep _ _ hs hu) h

theorem steps_add {j : Nat} {s u : State} (h : steps j s = some u) (k : Nat) : steps (j + k) s = steps k u := by
  induction j generalizing s with
  | zero => cases h; simp
  | succ j ih =>
    obtain ⟨v, hv, h⟩ := steps_succ_some h
    rw [show j + 1 + k = (j + k) + 1 by omega, steps_succ_of_next hv, ih h]

/-- A step from a state that has ended is impossible, so a next state came from one that had not. -/
theorem not_ended_of_step {s t : State} (h : step s = .next t) : s.status = .ready ∨ s.status = .running := by
  by_contra hn
  exact step_ended (by rcases hs : s.status <;> simp_all) t h

theorem runTo_of_ended {s : State} (h : s.ended = true) (f : Nat) : runTo f s = s := by
  cases f with
  | zero => simp [runTo, h]
  | succ f =>
    rw [runTo]
    split
    · rename_i t e
      rcases not_ended_of_step e with h' | h' <;> simp [State.ended, h'] at h
    · rfl
    · rfl

end Sys2Proof.Machine
end

