-- ==== Sys2Proof/Tests/Slice0.lean ====
section
/-! SUPPORT. The model's own tests. Expected results come from the spec: the worked examples and vectors of
95_test_vectors.md and the corner cases of the rules. After them, for each obligation with hypotheses, states and operands
that meet them, at the boundary values of its clauses. -/

namespace Sys2Proof.Tests

open Sys2Proof Sys2Proof.Machine

/-- The next state of an outcome. -/
def nextOf : Host.Outcome State Fault Refusal → Option State
  | .next t => some t
  | .fault _ => none
  | .refused _ => none

/-- A small state: a stack and a data memory, on a program of zeros. -/
def small (stack : List Int) (dmem : Memory) (params : Params := {}) : State :=
  { State.construct [0, 0, 0, 0, 0, 0] params with stack := stack, dmem := dmem }

/-- A constructed interpreter with a program and a stack. -/
def loaded (code : List Byte) (stack : List Int) (params : Params := {}) : State :=
  { State.construct code params with stack := stack }

/-- The stack after one instruction. -/
def stackAfter (i : Instr) (s : State) : Option (List Int) := (nextOf (exec i s)).map State.stack

/-- The error kind after one step, if it faulted. -/
def errorOf (o : Host.Outcome State Fault Refusal) : Option (ErrorKind × Nat × Nat) :=
  (nextOf o).bind fun t => if t.status = .faulted then t.err.map fun r => (r.kind, r.offset, r.count) else none

/-! ### Well-formedness -/

theorem test_wellFormed_refuses_offset_64 : Instr.wellFormed (.read 64) = false := by decide
theorem test_wellFormed_refuses_reserved_bits : Instr.wellFormed (.read 0xC5) = false := by decide
theorem test_wellFormed_accepts_offset_63 : Instr.wellFormed (.read 63) = true := by decide

/-! ### Decoding: words from the encodings of R83 and the scenarios S1 to S4 -/

theorem test_decode_load_468 : decode [0b01001010, 0xD4, 0x01, 0x00, 0x00] 0 = .ok (.load 468) 5 := by decide
theorem test_decode_read_raw : decode [0b10000111, 0xC5] 0 = .ok (.read 0xC5) 2 := by decide
theorem test_decode_write_12345678 : decode [0b11010101, 0x78, 0x56, 0x34, 0x12] 0 = .ok (.write 0x12345678) 5 := by decide
theorem test_decode_sgn : decode [0b10011010] 0 = .ok .sgn 1 := by decide
theorem test_decode_illegal : decode [0x00] 0 = .illegalOpcode := by decide
theorem test_decode_truncated : decode [0x4A, 0x01, 0x00] 0 = .truncatedInstruction := by decide
theorem test_decode_operand_bytes_are_data : decode [0x4A, 0x87, 0x87, 0x87, 0x87] 0 = .ok (.load 2273806215) 5 := by decide
theorem test_decode_illegal_before_truncated : decode [0x9A, 0x4B] 1 = .illegalOpcode := by decide
theorem test_decodeTableWord_rows :
    decodeTableWord 40 0x4A = some (.load 0) ∧ decodeTableWord 16 0x0587 = some (.read 5) ∧
    decodeTableWord 40 0x12345678D5 = some (.write 0x12345678) ∧ decodeTableWord 8 0x9A = some .sgn ∧
    decodeTableWord 8 0x4A = some (.load 0) ∧ decodeTableWord 8 0x4B = none := by decide
/-- S5's program. -/
theorem test_decodeProgram_S5 :
    decodeProgram [0x4A, 0x64, 0, 0, 0, 0x4A, 0x2A, 0, 0, 0, 0xD5, 0x64, 0, 0, 0]
      = some [.load 100, .load 42, .write 100] := by decide

/-! ### The encoder: the vectors of section 2.1 -/

theorem test_encode_S1_to_S4 :
    encodeSymbolic .ignore ⟨"load", some 468, 1⟩ = .ok [0x4A, 0xD4, 0x01, 0x00, 0x00] ∧
    encodeSymbolic .ignore ⟨"read", some 15, 1⟩ = .ok [0x87, 0x0F] ∧
    encodeSymbolic .ignore ⟨"write", some 224, 1⟩ = .ok [0xD5, 0xE0, 0x00, 0x00, 0x00] ∧
    encodeSymbolic .reject ⟨"sgn", none, 1⟩ = .ok [0x9A] := by decide
theorem test_encode_read_bounds :
    encodeSymbolic .ignore ⟨"read", some 63, 1⟩ = .ok [0x87, 0x3F] ∧
    encodeSymbolic .ignore ⟨"read", some 64, 7⟩ = .error ⟨.operandOutOfRange, 7⟩ ∧
    encodeSymbolic .ignore ⟨"read", some (-1), 7⟩ = .error ⟨.operandOutOfRange, 7⟩ ∧
    encodeSymbolic .ignore ⟨"read", none, 7⟩ = .error ⟨.missingOperand, 7⟩ := by decide
theorem test_encode_u32_bounds :
    encodeSymbolic .ignore ⟨"load", some 4294967295, 1⟩ = .ok [0x4A, 0xFF, 0xFF, 0xFF, 0xFF] ∧
    encodeSymbolic .ignore ⟨"load", some 4294967296, 1⟩ = .error ⟨.operandOutOfRange, 1⟩ ∧
    encodeSymbolic .ignore ⟨"write", some 1024, 1⟩ = .ok [0xD5, 0x00, 0x04, 0x00, 0x00] ∧
    encodeSymbolic .ignore ⟨"write", some (-1), 1⟩ = .error ⟨.operandOutOfRange, 1⟩ := by decide
theorem test_encode_sgn_policy :
    encodeSymbolic .ignore ⟨"sgn", some 5, 3⟩ = .ok [0x9A] ∧
    encodeSymbolic .reject ⟨"sgn", some 5, 3⟩ = .error ⟨.unexpectedOperand, 3⟩ := by decide
theorem test_encode_unknown :
    encodeSymbolic .ignore ⟨"LOAD", some 1, 2⟩ = .error ⟨.unknownMnemonic, 2⟩ ∧
    encodeSymbolic .ignore ⟨"nop", none, 2⟩ = .error ⟨.unknownMnemonic, 2⟩ ∧
    encodeSymbolic .ignore ⟨"", none, 2⟩ = .error ⟨.unknownMnemonic, 2⟩ := by decide
theorem test_encodeProgram_failFast :
    encodeProgram .ignore [⟨"load", some 1, 1⟩, ⟨"read", some 64, 2⟩, ⟨"foo", none, 3⟩]
      = .error ⟨.operandOutOfRange, 2⟩ := by decide
theorem test_encodedSize :
    encodedSize 0x4A = some 5 ∧ encodedSize 0x87 = some 2 ∧ encodedSize 0xD5 = some 5 ∧ encodedSize 0x9A = some 1 ∧
    encodedSize 0x00 = none := by decide
theorem test_error_codes :
    EncodeErrorKind.unexpectedOperand.code = 4 ∧ ErrorKind.illegalOpcode.code = 16 ∧ ErrorKind.stackOverflow.code = 20 ∧
    HostErrorKind.invalidRange.code = 32 := by decide

/-! ### The instructions: sections 2.3 to 2.6 and the corner cases of R150 to R156 -/

theorem test_load_is_unsigned : stackAfter (.load 0xFFFFFFFF) (small [7] []) = some [7, 4294967295] := by decide
theorem test_load_overflow :
    errorOf (exec (.load 3) (small [1, 2] [] { stackCapacity := some 2 })) = some (.stackOverflow, 0, 0) := by decide
theorem test_read_masks_offset : stackAfter (.read 0xC5) (small [1, 0] [(5, 200)]) = some [1, 200] := by decide
theorem test_read_negative_base :
    stackAfter (.read 1) (small [-1] [(0, 255)]) = some [255] ∧
    errorOf (exec (.read 0) (small [-1] [(0, 255)])) = some (.invalidAddress, 0, 0) := by decide
theorem test_write_low_byte :
    (nextOf (exec (.write 3) (small [100, 0x1234] []))).map (fun t => (t.stack, t.dmem)) = some ([100], [(3, 0x34)]) := by
  decide
theorem test_write_negative_and_zero :
    (nextOf (exec (.write 1) (small [-1] []))).map State.dmem = some [(1, 0xFF)] ∧
    (nextOf (exec (.write 3) (small [256] [(3, 9)]))).map State.dmem = some [] := by decide
theorem test_sgn_byte_is_signed :
    stackAfter .sgn (small [10] [(10, 0x80)]) = some [-1] ∧ stackAfter .sgn (small [10] [(10, 0x7F)]) = some [1] ∧
    stackAfter .sgn (small [10] []) = some [0] := by decide
theorem test_sgn_bounds :
    errorOf (exec .sgn (small [1024] [])) = some (.invalidAddress, 0, 0) ∧
    errorOf (exec .sgn (small [] [])) = some (.stackUnderflow, 0, 0) := by decide

/-! ### The step: section 2.2 -/

theorem test_step_empty_program :
    (nextOf (step State.reset)).map (fun t => (t.status, t.count, t.stack)) = some (.halted, 0, []) := by decide
theorem test_step_illegal : errorOf (step (loaded [0x00] [])) = some (.illegalOpcode, 0, 0) := by decide
theorem test_step_truncated_before_underflow :
    errorOf (step (loaded [0x87] [])) = some (.truncatedInstruction, 0, 0) := by decide
theorem test_step_second_instruction_faults :
    errorOf (step { loaded [0x4A, 0, 0, 0, 0, 0x4B] [0] with ip := 5, count := 1, status := .running })
      = some (.illegalOpcode, 5, 1) := by decide
theorem test_step_halts_at_the_end :
    (nextOf (step (loaded [0x4A, 7, 0, 0, 0] []))).map (fun t => (t.status, t.ip, t.count, t.stack))
      = some (.halted, 5, 1, [7]) := by decide
theorem test_step_from_halted : nextOf (step { State.reset with status := .halted }) = none := by decide
theorem test_withFetchWord_runs :
    (nextOf (step (State.reset.withFetchWord 40 0xFFFFFFFF4A))).map (fun t => (t.stack, t.ip, t.status))
      = some ([4294967295], 5, .halted) := by decide

/-! ### The host interface -/

theorem test_run_faults :
    run [0x4A, 5, 0, 0, 0, 0xD5, 0x00, 0x04, 0, 0] {} = .faulted .invalidAddress 5 1 := by decide
theorem test_run_small_memory :
    run [0x4A, 5, 0, 0, 0, 0xD5, 1, 0, 0, 0] { dataMemSize := 2 } = .halted [] [0, 5] 2 := by decide
theorem test_limit_fires : runLimited 1 [0x4A, 5, 0, 0, 0, 0x9A] {} = .limitReached := by decide
theorem test_limit_zero_empty_program : runLimited 0 [] { dataMemSize := 1 } = .halted [] [0] 0 := by decide
theorem test_inspect :
    inspect { small [] [(5, 200)] with status := .halted } 4 5 = .bytes [0, 200] ∧
    inspect { small [] [] with status := .halted } 1023 1024 = .error .invalidRange ∧
    inspect { small [] [] with status := .faulted } 0 0 = .refused := by decide
theorem test_launch_image :
    (State.launch [] { dataMemSize := 3 } [0, 7, 0, 9]).dmem = [(1, 7)] := by decide

/-! ### States and operands that meet the obligations' hypotheses -/

theorem witness_DecodeFollowsTheCaseTable :
    ([0x4A, 1, 2, 3, 4] : List Byte)[0]? = some 0x4A#8 ∧ ([0x4A, 1, 2, 3] : List Byte)[0]? = some 0x4A#8 ∧
    ([0x87, 9] : List Byte)[1]? = some 9 ∧ ([0x87] : List Byte)[0]? = some 0x87#8 ∧
    ([0xD5, 1, 2, 3, 4] : List Byte)[0]? = some 0xD5#8 ∧ ([0xD5, 1, 2, 3] : List Byte)[0]? = some 0xD5#8 ∧
    ([0x9A] : List Byte)[0]? = some 0x9A#8 ∧ ([0xFF] : List Byte)[0]? = some 0xFF#8 := by decide

theorem witness_SizeDependsOnTheOpcodeAlone :
    encodeSymbolic .ignore ⟨"write", some 1, 1⟩ = .ok [0xD5, 1, 0, 0, 0] ∧ decode [0x87, 0xFF] 0 = .ok (.read 0xFF) 2 := by
  decide

theorem witness_OnlyFourOpcodesAreLegal :
    (loaded [0x49] []).Active ∧ (loaded [0x49] []).code[(loaded [0x49] []).ip]? = some 0x49#8 ∧
    (loaded [0x4A] []).Active ∧ (loaded [0x4A] []).code[(loaded [0x4A] []).ip]? = some 74#8 :=
  ⟨.inl rfl, rfl, .inl rfl, rfl⟩

theorem witness_AcceptedOperandsEncodeExactly : 4294967295 ≤ 2 ^ 32 - 1 ∧ 63 ≤ 63 := by decide

theorem witness_EncodingErrorsFollowTheOrder :
    encodeSymbolic .reject ⟨"sgn", some 0, 4⟩ = .error ⟨.unexpectedOperand, 4⟩ ∧
    encodeSymbolic .reject ⟨"sgn ", none, 4⟩ = .error ⟨.unknownMnemonic, 4⟩ ∧
    encodeSymbolic .reject ⟨"load", none, 4⟩ = .error ⟨.missingOperand, 4⟩ ∧
    encodeSymbolic .reject ⟨"load", some (-1), 4⟩ = .error ⟨.operandOutOfRange, 4⟩ := by decide

theorem witness_EncodingIsInstructionLocal :
    encodeSymbolic .ignore ⟨"sgn", none, 1⟩ = .ok [0x9A] ∧
    encodeSymbolic .ignore ⟨"sgm", none, 1⟩ = .error ⟨.unknownMnemonic, 1⟩ ∧
    encodeProgram .ignore ([⟨"sgn", none, 1⟩] ++ [⟨"read", some 1, 2⟩]) = .ok [0x9A, 0x87, 1] := by decide

theorem witness_EncodedPrograms :
    encodeProgram .ignore [⟨"load", some 100, 1⟩, ⟨"write", some 100, 2⟩]
      = .ok [0x4A, 0x64, 0, 0, 0, 0xD5, 0x64, 0, 0, 0] := by decide

/-- A stack below its capacity and one at it. -/
theorem witness_LoadConstPushesItsField :
    ¬ (small [1] [] { stackCapacity := some 2 }).StackFull ∧ (small [1, 2] [] { stackCapacity := some 2 }).StackFull :=
  ⟨by unfold State.StackFull; decide, rfl⟩

theorem small_withinCapacity (stack : List Int) (dmem : Memory) : (small stack dmem).WithinCapacity := by
  intro k h; cases h

/-- The empty stack, the first address past the end, the last cell, the first cell from -1, and the address -1. -/
theorem witness_ReadMemPushesTheAddressedByte :
    (small [] []).WithinCapacity ∧ (small [] []).stack = [] ∧
    (small [8, 1023] []).WithinCapacity ∧ (small [8, 1023] []).stack = [8] ++ [1023] ∧
    ¬ ((0 : Int) ≤ 1023 + (((1 : Byte).toNat % 64 : Nat) : Int) ∧
        (1023 : Int) + (((1 : Byte).toNat % 64 : Nat) : Int) < (small [8, 1023] []).params.dataMemSize) ∧
    ((1023 : Nat) : Int) = 1023 + (((64 : Byte).toNat % 64 : Nat) : Int) ∧ 1023 < (small [8, 1023] []).params.dataMemSize ∧
    ((0 : Nat) : Int) = -1 + (((1 : Byte).toNat % 64 : Nat) : Int) ∧
    ¬ ((0 : Int) ≤ -1 + (((0 : Byte).toNat % 64 : Nat) : Int)) :=
  ⟨small_withinCapacity _ _, rfl, small_withinCapacity _ _, rfl, by decide, by decide, by decide, by decide, by decide⟩

/-- The last cell and the first address past the end (§8 "Address bounds"). -/
theorem witness_WriteMemStoresTheLowByte :
    Memory.wf (small [] [(3, 9)]).dmem ∧ (small [] [(3, 9)]).stack = [] ∧
    (small [8, 5] []).stack = [8] ++ [5] ∧ (1023#32).toNat < (small [8, 5] []).params.dataMemSize ∧
    (small [8, 5] []).params.dataMemSize ≤ (1024#32).toNat := by decide

theorem witness_SgnPushesTheSignOfTheByte :
    (small [] []).WithinCapacity ∧ (small [] []).stack = [] ∧ (small [8, 1023] []).stack = [8] ++ [1023] ∧
    1023 < (small [8, 1023] []).params.dataMemSize ∧
    ¬ ((0 : Int) ≤ 1024 ∧ (1024 : Int) < (small [8, 1024] []).params.dataMemSize) ∧
    ¬ ((0 : Int) ≤ -1 ∧ (-1 : Int) < (small [8, -1] []).params.dataMemSize) :=
  ⟨small_withinCapacity _ _, rfl, rfl, by decide, by decide, by decide⟩

/-- Cells that hold the ends of the three ranges of R157. -/
theorem witness_SignFollowsTheThreeByteRanges :
    (small [2, 0] []).WithinCapacity ∧ (small [2, 0] []).stack = [2] ++ [((0 : Nat) : Int)] ∧
    0 < (small [2, 0] []).params.dataMemSize ∧ ((small [2, 0] []).dmem.read 0).toNat = 0 ∧
    ((small [2, 0] [(0, 1)]).dmem.read 0).toNat = 1 ∧ ((small [2, 0] [(0, 127)]).dmem.read 0).toNat = 127 ∧
    ((small [2, 0] [(0, 128)]).dmem.read 0).toNat = 128 ∧ ((small [2, 0] [(0, 255)]).dmem.read 0).toNat = 255 :=
  ⟨small_withinCapacity _ _, rfl, by decide, by decide, by decide, by decide, by decide, by decide⟩

theorem witness_ReservedOffsetBitsAreIgnored :
    (0xC5 : Byte).toNat % 64 = (0x05 : Byte).toNat % 64 ∧
    encodeSymbolic .ignore ⟨"read", some 63, 1⟩ = .ok [0x87#8, 63] := by decide

theorem witness_EmptyStackUnderflowsFirst : (small [] []).stack = [] ∧ ∀ v, Instr.write 5000 ≠ .load v :=
  ⟨rfl, fun _ h => by cases h⟩

theorem witness_OnlyLoadConstCanOverflow :
    (small [1, 2] [] { stackCapacity := some 2 }).WithinCapacity ∧
    ∃ t, exec (.load 3) (small [1, 2] [] { stackCapacity := some 2 }) = .next t ∧
      (small [1, 2] [] { stackCapacity := some 2 }).FaultedTo t .stackOverflow := by
  refine ⟨?_, _, rfl, rfl, rfl, rfl, rfl, rfl, rfl, rfl⟩
  intro k h; cases h; decide

theorem witness_NoDataMemoryFailsEveryAccess :
    (small [1] [] { dataMemSize := 0 }).params.dataMemSize = 0 ∧ (small [1] [] { dataMemSize := 0 }).stack ≠ [] ∧
    ∀ v, Instr.sgn ≠ .load v :=
  ⟨rfl, by decide, fun _ h => by cases h⟩

theorem witness_ReadSeesTheByteJustWritten :
    Memory.wf (small [9, 1020, 300] []).dmem ∧ (small [9, 1020, 300] []).WithinCapacity ∧
    (small [9, 1020, 300] []).stack = [9] ++ [1020, 300] ∧ (1023#32).toNat < (small [9, 1020, 300] []).params.dataMemSize ∧
    (1020 : Int) + (((0xC3 : Byte).toNat % 64 : Nat) : Int) = ((1023#32).toNat : Int) ∧
    (small [9, 1023, 300] []).stack = [9] ++ [1023, 300] :=
  ⟨by decide, small_withinCapacity _ _, rfl, by decide, by decide, rfl⟩

theorem witness_OnlyWriteMemChangesDataMemory :
    (∃ t, exec (.write 1023) (small [5] []) = .next t ∧ t.dmem = [(1023, 5)]) ∧
    (∃ t, exec .sgn (small [5] [(5, 200)]) = .next t ∧ t.dmem = [(5, 200)]) :=
  ⟨⟨_, rfl, by decide⟩, ⟨_, rfl, by decide⟩⟩

theorem witness_ResultsDependOnStackAndMemoryAlone :
    (small [5] [(5, 200)]).stack = ({ small [5] [(5, 200)] with ip := 4, count := 2, status := .running }).stack ∧
    (∃ t, exec (.read 0) (small [5] [(5, 200)]) = .next t ∧ t.status ≠ .faulted) ∧
    (∃ t, exec (.read 0) { small [5] [(5, 200)] with ip := 4, count := 2, status := .running } = .next t ∧
      t.status ≠ .faulted) ∧
    (∃ t, exec (.read 0) (small [5000] []) = .next t ∧ t.status = .faulted) :=
  ⟨rfl, ⟨_, rfl, by decide⟩, ⟨_, rfl, by decide⟩, ⟨_, rfl, by decide⟩⟩

theorem witness_CodeMemoryIsReadOnly :
    (∃ t, step (loaded [0x9A] [3]) = .next t) ∧ ([0x4A] : List Byte).length = (loaded [0x9A] [3]).code.length ∧
    (∃ t, exec .sgn (loaded [0x9A] [3]) = .next t) :=
  ⟨⟨_, rfl⟩, rfl, ⟨_, rfl⟩⟩

theorem witness_StepRunsTheDecodedInstruction :
    (loaded [0x87, 0xC5] [0]).Active ∧ decode (loaded [0x87, 0xC5] [0]).code (loaded [0x87, 0xC5] [0]).ip = .ok (.read 0xC5) 2 :=
  ⟨.inl rfl, by decide⟩

theorem witness_PlacedWordIsTheNextInstruction : decodeTableWord 8 0x87 = some (.read 0) := by decide

/-- A program that has all of its operand bytes, and one that lacks the last, for each opcode with an operand. -/
theorem witness_DispatchAndOperandRead :
    (loaded [0x4A, 1, 2, 3, 4] []).Active ∧ (loaded [0x4A, 1, 2, 3, 4] []).code[0]? = some 74#8 ∧
    (loaded [0x4A, 1, 2, 3] []).code[0]? = some 74#8 ∧ (loaded [0x87, 1] []).code[1]? = some 1#8 ∧
    (loaded [0x87] []).code[0]? = some 135#8 ∧ (loaded [0xD5, 1, 2, 3, 4] []).code[0]? = some 213#8 ∧
    (loaded [0xD5, 1, 2, 3] []).code[0]? = some 213#8 ∧ (loaded [0x9A] []).code[0]? = some 154#8 ∧
    (loaded [0x9B] []).code[0]? = some 0x9B#8 ∧
    (∃ t, exec (.load 0x04030201) (loaded [0x4A, 1, 2, 3, 4] []) = .next t ∧ t.status ≠ .faulted) :=
  ⟨.inl rfl, rfl, rfl, rfl, rfl, rfl, rfl, rfl, rfl, ⟨_, rfl, by decide⟩⟩

/-- Each way out of R130's table: nothing left, more to come, the end, an error; and the two states with no way out. -/
theorem witness_RunStateChangesByTheTable :
    State.reset.Active ∧ State.reset.code.length ≤ State.reset.ip ∧
    (nextOf (step (loaded [0x4A, 0, 0, 0, 0, 0x9A] []))).map State.status = some .running ∧
    (nextOf (step (loaded [0x4A, 0, 0, 0, 0] []))).map State.status = some .halted ∧
    (nextOf (step (loaded [0x9A] []))).map State.status = some .faulted ∧
    ({ State.reset with status := .halted } : State).status = .halted ∧
    ({ State.reset with status := .faulted } : State).status = .faulted :=
  ⟨.inl rfl, by decide, by decide, by decide, by decide, rfl, rfl⟩

theorem witness_CompletedStepsAdvanceBySize :
    (loaded [0x9A] [3]).ip < (loaded [0x9A] [3]).code.length ∧
    ∃ t, step (loaded [0x9A] [3]) = .next t ∧ t.status ≠ .faulted := ⟨by decide, _, rfl, by decide⟩

theorem witness_EveryErrorIsPrecise : ∃ t, step (loaded [0xD5, 0, 0, 0, 0] []) = .next t ∧ t.status = .faulted :=
  ⟨_, rfl, rfl⟩

theorem witness_EveryStepKeepsTheInvariant :
    (State.construct [0x4A, 5, 0, 0, 0, 0x9A] {}).Inv ∧ ∃ t, step (State.construct [0x4A, 5, 0, 0, 0, 0x9A] {}) = .next t :=
  ⟨{ ipInCode := by decide, dmemCanonical := by decide, dmemInBounds := by decide, stackInRange := by decide
     withinCapacity := by intro _ k h; cases h
     countLeIp := by decide, atReady := by decide, atRunning := by decide, atHalted := by decide
     errExactlyAtFault := rfl }, _, rfl⟩

/-- One state with bytes left and one with none. -/
theorem witness_EveryRunEnds : (loaded [0x9A, 0x9A] [3]).Active ∧ State.reset.Active ∧ State.reset.code.length - State.reset.ip = 0 :=
  ⟨.inl rfl, .inl rfl, by decide⟩

theorem witness_WellFormedRunCountsItsInstructions :
    decodeProgram [0x4A, 5, 0, 0, 0, 0x9A] = some [.load 5, .sgn] ∧ decodeProgram [0x9A] = some [.sgn] ∧
    (steps 2 (State.construct [0x4A, 5, 0, 0, 0, 0x9A] {})).map State.status = some .halted ∧
    (steps 1 (State.construct [0x9A] {})).map State.status = some .faulted := by decide

theorem witness_TruncatedTailFaultsAtItsStart :
    ([0x4A, 0x01, 0x00] : List Byte) ≠ [] ∧ decodeBytes [0x4A, 0x01, 0x00] = .truncatedInstruction ∧
    run (encodeAll [.load 5] ++ [0x87]) {} = .faulted .truncatedInstruction 5 1 ∧
    run (encodeAll [.sgn] ++ [0x87]) {} = .faulted .stackUnderflow 0 0 := by decide

theorem witness_EveryImageIsReachedFromReset :
    (1024 : Nat) ≤ 2 ^ 32 ∧ ({} : Params).stackCapacity ≠ some 0 ∧ (State.launch [] {} [0, 0, 0, 0, 0, 200]).dmem = [(5, 200)] := by
  decide

/-- The last cell below `N`, a cell past the image's end, and an image byte cut off at `N`. -/
theorem witness_LaunchHoldsItsImage :
    1 < ({ dataMemSize := 2 } : Params).dataMemSize ∧
    (State.launch [] { dataMemSize := 2 } [7, 8, 9]).dmem.read 1 = 8 ∧
    (State.launch [] { dataMemSize := 2 } [7, 8, 9]).dmem.read 2 = 0 ∧
    (State.launch [] { dataMemSize := 2 } [7]).dmem.read 1 = 0 := by decide

/-- A run that ends in `Halted`, one that ends in `Faulted`, and one that its limit cuts. -/
theorem witness_RunIsTheResultOfItsSteps :
    (steps 2 (State.construct [0x4A, 5, 0, 0, 0, 0x9A] { dataMemSize := 6 })).map State.result
      = some (run [0x4A, 5, 0, 0, 0, 0x9A] { dataMemSize := 6 }) ∧
    (steps 1 (State.construct [0x9A] {})).map State.result = some (run [0x9A] {}) ∧
    (steps 1 (State.construct [0x4A, 5, 0, 0, 0, 0x9A] {})).map State.ended = some false := by decide

theorem witness_LimitOfProgramLengthNeverFires : ([] : List Byte).length ≤ 0 ∧ ([0x9A] : List Byte).length ≤ 1 := by decide

theorem witness_EndedRunShowsItsOutputs :
    ({ small [1] [] with status := .halted } : State).status = .halted ∧
    ({ small [1] [] with status := .faulted, err := some ⟨.stackUnderflow, 0, 0⟩ } : State).err
      = some ⟨.stackUnderflow, 0, 0⟩ := by decide

/-- The whole of data memory, one byte past it, an empty range, and a run that did not halt. -/
theorem witness_InspectionIsInclusiveAndChecked :
    ((0 : Int) ≤ 0 ∧ (0 : Int) ≤ 1023 ∧ (1023 : Int) < (small [] []).params.dataMemSize) ∧
    ¬ ((0 : Int) ≤ 0 ∧ (0 : Int) ≤ 1024 ∧ (1024 : Int) < (small [] []).params.dataMemSize) ∧
    ¬ ((0 : Int) ≤ 5 ∧ (5 : Int) ≤ 4 ∧ (4 : Int) < (small [] []).params.dataMemSize) ∧
    (small [] []).status ≠ .halted := by decide

end Sys2Proof.Tests
end

/-! PROOFS. Code memory (R37): no update of the state writes it, and execution does not read its bytes. -/

namespace Sys2Proof.Machine

section Settle
variable (s : State) (i : Instr) (e : Except ErrorKind Work)

@[simp] theorem settle_code : (s.settle i e).code = s.code := by
  cases e with
  | ok w => simp
  | error k => simp

/-- Settling reads the program's length and no more of it: completion compares the new `ip` with `L` (R135). -/
theorem settle_with_code {code' : List Byte} (hlen : code'.length = s.code.length) :
    State.settle { s with code := code' } i e = { s.settle i e with code := code' } := by
  cases e with
  | ok w => simp [State.complete, hlen]
  | error k => rfl

end Settle

theorem exec_code {i : Instr} {s t : State} (h : exec i s = .next t) : t.code = s.code := by
  rw [exec_eq_settle] at h
  cases h
  exact settle_code ..

/-- An instruction's execute part sees the parameters, the stack and data memory alone, so another program of the same length
changes nothing but the program kept. -/
theorem exec_with_code {i : Instr} {s t : State} {code' : List Byte} (hlen : code'.length = s.code.length)
    (h : exec i s = .next t) : exec i { s with code := code' } = .next { t with code := code' } := by
  rw [exec_eq_settle] at h ⊢
  cases h
  exact congrArg Host.Outcome.next (settle_with_code s i _ hlen)

theorem step_code {s t : State} (h : step s = .next t) : t.code = s.code := by
  rcases step_cases (not_ended_of_step h) with ⟨-, e⟩ | ⟨-, ⟨i, -, e⟩ | ⟨-, e⟩ | ⟨-, e⟩⟩ <;> rw [e] at h
  · cases h; exact haltAtEnd_code s
  · exact exec_code h
  · cases h; exact takeError_code ..
  · cases h; exact takeError_code ..

/-- Settles O25: a step is a halt, an instruction or an error, and none of these writes the program; an instruction is its
execute part, which is not given the program, settled by the program's length. -/
theorem codeMemoryIsReadOnly : Obligations.CodeMemoryIsReadOnly :=
  ⟨fun _ _ => ⟨rfl, rfl⟩, fun _ _ => step_code, fun _ _ _ _ hlen h => ⟨exec_code h, exec_with_code hlen h⟩⟩

end Sys2Proof.Machine

/-! PROOFS. The decoder's case table (R89): one equation per opcode, one lemma per operand format. -/

namespace Sys2Proof

/-! ### Dispatch on the opcode byte -/

section Dispatch
variable (rest : List Byte)

@[simp] theorem decodeBytes_opLoad : decodeBytes (opLoad :: rest) = decodeU32 .load rest := rfl
@[simp] theorem decodeBytes_opRead : decodeBytes (opRead :: rest) = decodeU8 .read rest := rfl
@[simp] theorem decodeBytes_opWrite : decodeBytes (opWrite :: rest) = decodeU32 .write rest := rfl
@[simp] theorem decodeBytes_opSgn : decodeBytes (opSgn :: rest) = .ok .sgn 1 := rfl

theorem decodeBytes_illegal {op : Byte} (hl : op ≠ opLoad) (hr : op ≠ opRead) (hw : op ≠ opWrite) (hs : op ≠ opSgn) :
    decodeBytes (op :: rest) = .illegalOpcode := by
  simp only [decodeBytes, if_neg hl, if_neg hr, if_neg hw, if_neg hs]

end Dispatch

/-- Inside a program, decoding sees the opcode byte and the bytes after it. -/
theorem decode_eq_decodeBytes_cons {code : List Byte} {s : Nat} {op : Byte} (h : code[s]? = some op) :
    decode code s = decodeBytes (op :: code.drop (s + 1)) := by
  rw [decode, List.drop_eq_getElem?_toList_append, h, Option.toList_some, List.singleton_append]

/-- A decoded instruction's opcode is the byte at the offset decoded. -/
theorem decode_ok_opcode {code : List Byte} {s : Nat} {i : Instr} {n : Nat} (h : decode code s = .ok i n) :
    code[s]? = some i.opcode := by
  obtain ⟨-, -, hop⟩ := decodeBytes_ok h
  rwa [List.head?_drop] at hop

/-! ### The operand read of each format (R133) -/

section Operand
variable {code rest : List Byte} {p : Nat}

theorem decodeU32_truncated (build : Word → Instr) (h : rest.length < 4) :
    decodeU32 build rest = .truncatedInstruction := by
  match rest, h with
  | [], _ | [_], _ | [_, _], _ | [_, _, _], _ => rfl
  | _ :: _ :: _ :: _ :: _, h => simp only [List.length_cons] at h; omega

theorem le32At_of_drop_eq {b0 b1 b2 b3 : Byte} (h : code.drop p = b0 :: b1 :: b2 :: b3 :: rest) :
    Machine.le32At code p = (le32 b0 b1 b2 b3).toNat := by
  have byte (k : Nat) : code.getD (p + k) 0 = (b0 :: b1 :: b2 :: b3 :: rest).getD k 0 := by
    simp only [← h, List.getD_eq_getElem?_getD, List.getElem?_drop]
  rw [Machine.le32At, show code.getD p 0 = b0 from byte 0, byte 1, byte 2, byte 3, le32_toNat]
  rfl

/-- Where four bytes are left, the field is their little-endian value. -/
theorem decodeU32_drop (build : Word → Instr) (h : 4 ≤ code.length - p) :
    ∃ v : Word, v.toNat = Machine.le32At code p ∧ decodeU32 build (code.drop p) = .ok (build v) 5 := by
  rw [← List.length_drop] at h
  match hd : code.drop p, h with
  | b0 :: b1 :: b2 :: b3 :: _, _ => exact ⟨le32 b0 b1 b2 b3, (le32At_of_drop_eq hd).symm, rfl⟩

/-- The two clauses of R89 for an opcode with a 32-bit field. -/
theorem decodeU32_drop_cases (build : Word → Instr) (code : List Byte) (p : Nat) :
    (code.length - p < 4 → decodeU32 build (code.drop p) = .truncatedInstruction) ∧
    (4 ≤ code.length - p →
      ∃ v : Word, v.toNat = Machine.le32At code p ∧ decodeU32 build (code.drop p) = .ok (build v) 5) :=
  ⟨fun h => decodeU32_truncated build (by rwa [List.length_drop]), decodeU32_drop build⟩

/-- The two clauses of R89 for an opcode with an offset byte. -/
theorem decodeU8_drop_cases (build : Byte → Instr) (code : List Byte) (p : Nat) :
    (code.length - p < 1 → decodeU8 build (code.drop p) = .truncatedInstruction) ∧
    (∀ b, code[p]? = some b → decodeU8 build (code.drop p) = .ok (build b) 2) := by
  constructor
  · intro h
    rw [List.drop_eq_nil_of_le (by omega)]
    rfl
  · intro b hb
    rw [List.drop_eq_getElem?_toList_append, hb]
    rfl

end Operand

/-- Settles O2: decoding dispatches on the byte at the offset, and the operand read of that opcode's format answers from the
bytes after it. -/
theorem decodeFollowsTheCaseTable : Obligations.DecodeFollowsTheCaseTable := by
  intro code s op hop
  rw [decode_eq_decodeBytes_cons hop]
  refine ⟨?load, ?read, ?write, ?sgn, ?illegal⟩
  case load => rintro rfl; exact decodeU32_drop_cases .load code (s + 1)
  case read => rintro rfl; exact decodeU8_drop_cases .read code (s + 1)
  case write => rintro rfl; exact decodeU32_drop_cases .write code (s + 1)
  case sgn => rintro rfl; exact decodeBytes_opSgn _
  case illegal => exact decodeBytes_illegal _

end Sys2Proof

/-! PROOFS. Sizes (R82): an instruction's bytes are as many as its opcode says, and whatever the encoder accepts is the bytes
of an instruction of the opcode looked up. -/

namespace Sys2Proof

theorem sizeByOpcode : ∀ i : Instr, Laws.SizeByOpcode.Statement i
  | .load value => Laws.SizeByOpcode.load value
  | .read off8 => Laws.SizeByOpcode.read off8
  | .write address => Laws.SizeByOpcode.write address
  | .sgn => Laws.SizeByOpcode.sgn

@[simp] theorem encode_length (i : Instr) : (encode i).length = i.size := (sizeByOpcode i).2

@[simp] theorem encodedSize_opcode (i : Instr) : encodedSize i.opcode = some i.size := by
  rw [(sizeByOpcode i).1, encode_length]

@[simp] theorem encode_head? (i : Instr) : (encode i).head? = some i.opcode := by cases i <;> rfl

end Sys2Proof

namespace Sys2Proof.Machine

section Accepted
variable {operand : Option Int} {bytes : List Byte}

/-- An encoding that checks its operand and then emits bytes, where it is accepted, emits the bytes of some operand. -/
theorem exists_of_check_then_emit {α : Type} {check : Except EncodeErrorKind α} {emit : α → List Byte}
    (h : (do let v ← check; return emit v) = .ok bytes) : ∃ v, bytes = emit v := by
  cases check with
  | error kind => cases h
  | ok v => cases h; exact ⟨v, rfl⟩

theorem encodeLoad_ok (h : encodeLoad operand = .ok bytes) : ∃ v, bytes = encode (.load v) :=
  exists_of_check_then_emit h

theorem encodeRead_ok (h : encodeRead operand = .ok bytes) : ∃ off, bytes = encode (.read off) :=
  exists_of_check_then_emit h

theorem encodeWrite_ok (h : encodeWrite operand = .ok bytes) : ∃ a, bytes = encode (.write a) :=
  exists_of_check_then_emit h

theorem encodeSgn_ok {policy : SgnOperandPolicy} (h : encodeSgn policy operand = .ok bytes) : bytes = encode .sgn := by
  cases operand with
  | none => cases h; rfl
  | some v =>
    cases policy with
    | ignore => cases h; rfl
    | reject => cases h

end Accepted

/-- A mnemonic has one of the four opcodes, or none (R101). -/
theorem lookup_some {m : String} {op : Byte} (h : lookup m = some op) :
    op = opLoad ∨ op = opRead ∨ op = opWrite ∨ op = opSgn := by
  unfold lookup at h
  split_ifs at h <;> cases h <;> simp

/-- What the encoder accepts is the bytes of an instruction of the opcode that its mnemonic names. -/
theorem encodeOperand_ok {policy : SgnOperandPolicy} {m : String} {operand : Option Int} {bytes : List Byte}
    (h : encodeOperand policy m operand = .ok bytes) : ∃ i : Instr, lookup m = some i.opcode ∧ bytes = encode i := by
  unfold encodeOperand at h
  cases hm : lookup m with
  | none => rw [hm] at h; cases h
  | some op =>
    rw [hm] at h
    rcases lookup_some hm with rfl | rfl | rfl | rfl
    · obtain ⟨v, rfl⟩ := encodeLoad_ok h; exact ⟨.load v, rfl, rfl⟩
    · obtain ⟨off, rfl⟩ := encodeRead_ok h; exact ⟨.read off, rfl, rfl⟩
    · obtain ⟨a, rfl⟩ := encodeWrite_ok h; exact ⟨.write a, rfl, rfl⟩
    · exact ⟨.sgn, rfl, encodeSgn_ok h⟩

theorem encodeSymbolic_ok_iff {policy : SgnOperandPolicy} {x : SymInstr} {bytes : List Byte} :
    encodeSymbolic policy x = .ok bytes ↔ encodeOperand policy x.mnemonic x.operand = .ok bytes := by
  unfold encodeSymbolic
  cases encodeOperand policy x.mnemonic x.operand <;> simp

/-- Settles O5: what the encoder accepts and what decoding answers is an instruction each time, and the size of an instruction
is `encodedSize` of its opcode. -/
theorem sizeDependsOnTheOpcodeAlone : Obligations.SizeDependsOnTheOpcodeAlone := by
  refine ⟨encodedSize_opcode (.load 0), encodedSize_opcode (.read 0), encodedSize_opcode (.write 0), encodedSize_opcode .sgn,
    ?encoder, ?decoder⟩
  case encoder =>
    intro policy x bytes h
    obtain ⟨i, hlookup, rfl⟩ := encodeOperand_ok (encodeSymbolic_ok_iff.1 h)
    exact ⟨i.opcode, hlookup, encode_head? i, by rw [encode_length, encodedSize_opcode]⟩
  case decoder =>
    intro code s i n h
    obtain ⟨rfl, -⟩ := decode_ok h
    exact ⟨i.opcode, decode_ok_opcode h, encodedSize_opcode i⟩

end Sys2Proof.Machine

/-! PROOFS. The encoder is local (R107): a symbolic instruction's answer is its mnemonic's and operand's, the line only
labels an error, and a program's bytes are its instructions' bytes in a row (R108). -/

namespace Sys2Proof.Machine

section Local
variable {policy : SgnOperandPolicy}

/-- A refusal is the refusal of the mnemonic and the operand, labelled with the instruction's line. -/
theorem encodeSymbolic_error_iff {x : SymInstr} {e : EncodeError} :
    encodeSymbolic policy x = .error e ↔ encodeOperand policy x.mnemonic x.operand = .error e.kind ∧ e.line = x.line := by
  obtain ⟨kind, line⟩ := e
  unfold encodeSymbolic
  cases encodeOperand policy x.mnemonic x.operand <;> simp [eq_comm (a := line)]

@[simp] theorem encodeProgram_nil : encodeProgram policy [] = .ok [] := rfl

theorem encodeProgram_cons_ok_iff {x : SymInstr} {xs : List SymInstr} {code : List Byte} :
    encodeProgram policy (x :: xs) = .ok code ↔
      ∃ b rest, encodeSymbolic policy x = .ok b ∧ encodeProgram policy xs = .ok rest ∧ code = b ++ rest := by
  rw [encodeProgram_cons]
  cases encodeSymbolic policy x with
  | error e => simp
  | ok b => cases encodeProgram policy xs <;> simp [Except.map, eq_comm]

/-- A program in two parts encodes exactly when both parts do, to their bytes in order. -/
theorem encodeProgram_append_ok_iff {xs ys : List SymInstr} {code : List Byte} :
    encodeProgram policy (xs ++ ys) = .ok code ↔
      ∃ a b, encodeProgram policy xs = .ok a ∧ encodeProgram policy ys = .ok b ∧ code = a ++ b := by
  induction xs generalizing code with
  | nil => simp
  | cons x xs ih =>
    simp only [List.cons_append, encodeProgram_cons_ok_iff, ih]
    constructor
    · rintro ⟨b, -, hx, ⟨rest, c, hxs, hys, rfl⟩, rfl⟩
      exact ⟨b ++ rest, c, ⟨b, rest, hx, hxs, rfl⟩, hys, (List.append_assoc ..).symm⟩
    · rintro ⟨-, c, ⟨b, rest, hx, hxs, rfl⟩, hys, rfl⟩
      exact ⟨b, rest ++ c, hx, ⟨rest, c, hxs, hys, rfl⟩, List.append_assoc ..⟩

theorem encodeProgram_singleton_ok_iff {x : SymInstr} {bytes : List Byte} :
    encodeProgram policy [x] = .ok bytes ↔ encodeSymbolic policy x = .ok bytes := by
  simp [encodeProgram_cons_ok_iff]

end Local

/-- Settles O10: an instruction's answer is `encodeOperand`'s, which is not given the line, and a program's bytes follow by
induction on its first part. -/
theorem encodingIsInstructionLocal : Obligations.EncodingIsInstructionLocal := by
  refine ⟨?bytes, ?error, fun _ _ _ _ => encodeProgram_append_ok_iff, fun _ _ _ => encodeProgram_singleton_ok_iff⟩
  case bytes =>
    intro policy m o l1 l2 bytes h
    have hbytes : encodeOperand policy m o = .ok bytes := encodeSymbolic_ok_iff.1 h
    exact encodeSymbolic_ok_iff.2 hbytes
  case error =>
    intro policy m o l1 l2 e h
    obtain ⟨hkind, -⟩ := encodeSymbolic_error_iff.1 h
    exact encodeSymbolic_error_iff.2 ⟨hkind, rfl⟩

end Sys2Proof.Machine

/-! PROOFS. Decoding inverts encoding: one instruction (R90), a whole program (R91, R138), and what the encoder emitted (R111). -/

namespace Sys2Proof

/-! ### One instruction -/

@[simp] theorem decodeU32_wordBytes_append (build : Word → Instr) (v : Word) (rest : List Byte) :
    decodeU32 build (wordBytes v ++ rest) = .ok (build v) 5 := by
  simp only [wordBytes, List.cons_append, decodeU32, le32_wordBytes]

/-- Decoding reads the bytes of one instruction and none after them. -/
@[simp] theorem decodeBytes_encode_append (i : Instr) (rest : List Byte) :
    decodeBytes (encode i ++ rest) = .ok i i.size := by
  cases i with
  | load v => exact decodeU32_wordBytes_append .load v rest
  | read o => rfl
  | write a => exact decodeU32_wordBytes_append .write a rest
  | sgn => rfl

theorem decodeU32_eq_ok {build : Word → Instr} {bs : List Byte} {i : Instr} {n : Nat} (h : decodeU32 build bs = .ok i n) :
    ∃ v rest, i = build v ∧ bs = wordBytes v ++ rest := by
  match bs, h with
  | b0 :: b1 :: b2 :: b3 :: rest, h =>
    cases h
    exact ⟨le32 b0 b1 b2 b3, rest, rfl, by rw [wordBytes_le32]; rfl⟩

theorem decodeU8_eq_ok {build : Byte → Instr} {bs : List Byte} {i : Instr} {n : Nat} (h : decodeU8 build bs = .ok i n) :
    ∃ b rest, i = build b ∧ bs = b :: rest := by
  match bs, h with
  | b :: rest, h => cases h; exact ⟨b, rest, rfl, rfl⟩

/-- What decodes to an instruction begins with that instruction's bytes. -/
theorem exists_eq_encode_append {bs : List Byte} {i : Instr} {n : Nat} (h : decodeBytes bs = .ok i n) :
    ∃ rest, bs = encode i ++ rest := by
  cases bs with
  | nil => cases h
  | cons op bs =>
    simp only [decodeBytes] at h
    split_ifs at h with hl hr hw hs
    · obtain ⟨v, rest, rfl, rfl⟩ := decodeU32_eq_ok h; exact ⟨rest, by rw [hl]; rfl⟩
    · obtain ⟨b, rest, rfl, rfl⟩ := decodeU8_eq_ok h; exact ⟨rest, by rw [hr]; rfl⟩
    · obtain ⟨a, rest, rfl, rfl⟩ := decodeU32_eq_ok h; exact ⟨rest, by rw [hw]; rfl⟩
    · cases h; exact ⟨bs, by rw [hs]; rfl⟩

theorem decodeBytes_append_of_ok {bs : List Byte} {i : Instr} {n : Nat} (h : decodeBytes bs = .ok i n) (rest : List Byte) :
    decodeBytes (bs ++ rest) = .ok i i.size := by
  obtain ⟨tail, rfl⟩ := exists_eq_encode_append h
  rw [List.append_assoc, decodeBytes_encode_append]

theorem decode_append_length (pre bs : List Byte) : decode (pre ++ bs) pre.length = decodeBytes bs := by
  rw [decode, List.drop_left]

/-- Settles O3: decoding at the length of what precedes sees the instruction's bytes first, and reads no more than those. -/
theorem encodedInstructionDecodesInAnyContext : Obligations.EncodedInstructionDecodesInAnyContext := by
  intro i pre post
  rw [List.append_assoc, decode_append_length, decodeBytes_encode_append]

/-! ### Programs -/

@[simp] theorem encodeAll_nil : encodeAll [] = [] := rfl
@[simp] theorem encodeAll_cons (i : Instr) (is : List Instr) : encodeAll (i :: is) = encode i ++ encodeAll is := rfl
@[simp] theorem encodeAll_append (is js : List Instr) : encodeAll (is ++ js) = encodeAll is ++ encodeAll js :=
  List.flatMap_append

@[simp] theorem encodeAll_eq_nil_iff {is : List Instr} : encodeAll is = [] ↔ is = [] := by
  cases is with
  | nil => simp
  | cons i is => simp [encode_ne_nil]

/-- Where the head decodes, a sequence decodes as that instruction and what decoding the bytes after it gives. -/
theorem decodeSequence_encode_append (fuel : Nat) (i : Instr) (rest : List Byte) :
    decodeSequence (fuel + 1) (encode i ++ rest) = (decodeSequence fuel rest).map (i :: ·) := by
  obtain ⟨b, bs, hb⟩ := List.exists_cons_of_ne_nil (List.append_ne_nil_of_left_ne_nil (encode_ne_nil i) rest)
  rw [hb, decodeSequence, ← hb, decodeBytes_encode_append]
  simp only [← encode_length, List.drop_left]

theorem decodeSequence_encodeAll {fuel : Nat} {is : List Instr} (h : (encodeAll is).length ≤ fuel) :
    decodeSequence fuel (encodeAll is) = some is := by
  induction is generalizing fuel with
  | nil => simp [decodeSequence]
  | cons i is ih =>
    have := size_pos i
    rw [encodeAll_cons, List.length_append, encode_length] at h
    obtain ⟨fuel, rfl⟩ : ∃ f, fuel = f + 1 := ⟨fuel - 1, by omega⟩
    rw [encodeAll_cons, decodeSequence_encode_append, ih (by omega), Option.map_some]

theorem eq_encodeAll_of_decodeSequence {fuel : Nat} {bs : List Byte} {is : List Instr}
    (h : decodeSequence fuel bs = some is) : bs = encodeAll is := by
  induction fuel generalizing bs is with
  | zero =>
    cases bs with
    | nil => cases h; rfl
    | cons b bs => cases h
  | succ fuel ih =>
    match bs, h with
    | [], h => cases h; rfl
    | b :: bs, h =>
      cases hd : decodeBytes (b :: bs) with
      | ok i n =>
        obtain ⟨rest, hrest⟩ := exists_eq_encode_append hd
        rw [hrest, decodeSequence_encode_append] at h
        obtain ⟨js, hjs, rfl⟩ := Option.map_eq_some_iff.1 h
        rw [hrest, ih hjs, encodeAll_cons]
      | illegalOpcode => simp [decodeSequence, hd] at h
      | truncatedInstruction => simp [decodeSequence, hd] at h

/-- Settles O4: each direction by induction, on the fuel and on the list of instructions. -/
theorem programDecodingInvertsConcatenation : Obligations.ProgramDecodingInvertsConcatenation := by
  intro code is
  constructor
  · exact eq_encodeAll_of_decodeSequence
  · rintro rfl
    exact decodeSequence_encodeAll le_rfl

/-! ### Start offsets (R110) -/

theorem encodeAll_length (is : List Instr) : (encodeAll is).length = (is.map Instr.size).sum := by
  induction is with
  | nil => rfl
  | cons i is ih => simp [ih]

end Sys2Proof

namespace Sys2Proof.Machine

/-- An instruction starts where the bytes of those before it end. -/
theorem startOffset_eq_length (is : List Instr) (k : Nat) : startOffset is k = (encodeAll (is.take k)).length :=
  (encodeAll_length _).symm

@[simp] theorem startOffset_zero (is : List Instr) : startOffset is 0 = 0 := rfl

theorem startOffset_length (is : List Instr) : startOffset is is.length = (encodeAll is).length := by
  rw [startOffset_eq_length, List.take_length]

theorem startOffset_succ {is : List Instr} {k : Nat} {i : Instr} (h : is[k]? = some i) :
    startOffset is (k + 1) = startOffset is k + i.size := by
  simp [startOffset, List.take_add_one, h]

theorem decode_startOffset {is : List Instr} {k : Nat} {i : Instr} (h : is[k]? = some i) (tail : List Byte) :
    decode (encodeAll is ++ tail) (startOffset is k) = .ok i i.size := by
  obtain ⟨hk, hi⟩ := List.getElem?_eq_some_iff.1 h
  have hsplit : encodeAll is ++ tail = encodeAll (is.take k) ++ encode i ++ (encodeAll (is.drop (k + 1)) ++ tail) := by
    conv_lhs => rw [← List.take_append_drop k is, List.drop_eq_getElem_cons hk, hi]
    simp
  rw [hsplit, startOffset_eq_length]
  exact encodedInstructionDecodesInAnyContext ..

theorem encodeAll_length_eq_add (is : List Instr) (k : Nat) :
    (encodeAll is).length = startOffset is k + (encodeAll (is.drop k)).length := by
  rw [startOffset_eq_length, ← List.length_append, ← encodeAll_append, List.take_append_drop]

/-- The bytes from an instruction on are none only where no instruction is left. -/
theorem length_le_of_startOffset_eq {is : List Instr} {tail : List Byte} {k : Nat}
    (h : startOffset is k = (encodeAll is ++ tail).length) : is.length ≤ k ∧ tail = [] := by
  rw [List.length_append, encodeAll_length_eq_add is k] at h
  have hdrop : encodeAll (is.drop k) = [] := List.length_eq_zero_iff.1 (by omega)
  exact ⟨List.drop_eq_nil_iff.1 (encodeAll_eq_nil_iff.1 hdrop), List.length_eq_zero_iff.1 (by omega)⟩

end Sys2Proof.Machine

/-! PROOFS. The encoder, instruction by instruction (R101 to R106), and what its answers say of a program (R108, R110, R111). -/

namespace Sys2Proof

/-- Settles O1: each word is the encoding of its instruction, by R83, or is refused at its first byte. -/
theorem writtenOutWordsDecode : Obligations.WrittenOutWordsDecode := by
  refine ⟨?_, ?_, ?_, ?_, ?_, ?_, ?_⟩ <;> decide

/-- The bytes of a 32-bit field are its digits in base 256, the least significant first (R80). -/
theorem wordBytes_ofNat_toNat {v : Nat} (h : v < 2 ^ 32) :
    (wordBytes (BitVec.ofNat 32 v)).map BitVec.toNat = [v % 256, v / 256 % 256, v / 65536 % 256, v / 16777216] := by
  simp only [wordBytes, List.map_cons, List.map_nil, BitVec.extractLsb'_toNat, Nat.shiftRight_eq_div_pow,
    BitVec.toNat_ofNat, Nat.mod_eq_of_lt h, Nat.pow_zero, Nat.div_one, List.cons.injEq, and_true, true_and]
  omega

end Sys2Proof

namespace Sys2Proof.Machine

/-! ### The mnemonics -/

/-- Settles O7: `lookup` compares the string with the four mnemonics in turn. -/
theorem mnemonicLookupIsExact : Obligations.MnemonicLookupIsExact := by
  intro m op
  unfold lookup
  split_ifs with hl hr hw hs
  · simp [hl, opLoad, eq_comm]
  · simp [hr, opRead, eq_comm]
  · simp [hw, opWrite, eq_comm]
  · simp [hs, opSgn, eq_comm]
  · simp [hl, hr, hw, hs]

section Mnemonic
variable (policy : SgnOperandPolicy) (operand : Option Int)

@[simp] theorem encodeOperand_load : encodeOperand policy "load" operand = encodeLoad operand := rfl
@[simp] theorem encodeOperand_read : encodeOperand policy "read" operand = encodeRead operand := rfl
@[simp] theorem encodeOperand_write : encodeOperand policy "write" operand = encodeWrite operand := rfl
@[simp] theorem encodeOperand_sgn : encodeOperand policy "sgn" operand = encodeSgn policy operand := rfl

theorem encodeOperand_unknown {m : String} (h : m ∉ ["load", "read", "write", "sgn"]) :
    encodeOperand policy m operand = .error .unknownMnemonic := by
  simp only [List.mem_cons, List.not_mem_nil, or_false, not_or] at h
  obtain ⟨hl, hr, hw, hs⟩ := h
  simp [encodeOperand, lookup, hl, hr, hw, hs]

end Mnemonic

theorem mnemonic_cases (m : String) :
    m = "load" ∨ m = "read" ∨ m = "write" ∨ m = "sgn" ∨ m ∉ ["load", "read", "write", "sgn"] := by
  simp only [List.mem_cons, List.not_mem_nil, or_false]
  tauto

/-! ### Operands -/

/-- What an encoding with an operand in `[0, bound]` answers: no operand, one out of range, or the bytes of `emit` at it. -/
def OperandAnswer (bound : Int) (emit : Nat → Instr) (operand : Option Int) (answer : Except EncodeErrorKind (List Byte)) :
    Prop :=
  (operand = none ∧ answer = .error .missingOperand) ∨
  (∃ v, operand = some v ∧ (v < 0 ∨ bound < v) ∧ answer = .error .operandOutOfRange) ∨
  (∃ v : Nat, (v : Int) ≤ bound ∧ operand = some (v : Int) ∧ answer = .ok (encode (emit v)))

/-- `encode_load` and `encode_write` check their operand alike (R103, R105). -/
theorem operandAnswer_of_operandU32 (build : Word → Instr) (operand : Option Int) :
    OperandAnswer (2 ^ 32 - 1) (fun v => build (BitVec.ofNat 32 v)) operand
      (do let v ← operandU32 operand; return encode (build v)) := by
  rcases operandU32_cases operand with ⟨h, e⟩ | ⟨v, h, hv, e⟩ | ⟨v, hv, h, e⟩
  · exact .inl ⟨h, by rw [e]; rfl⟩
  · exact .inr (.inl ⟨v, h, hv, by rw [e]; rfl⟩)
  · exact .inr (.inr ⟨v, by omega, h, by rw [e]; rfl⟩)

theorem encodeLoad_answer (operand : Option Int) :
    OperandAnswer (2 ^ 32 - 1) (fun v => .load (BitVec.ofNat 32 v)) operand (encodeLoad operand) :=
  operandAnswer_of_operandU32 .load operand

theorem encodeWrite_answer (operand : Option Int) :
    OperandAnswer (2 ^ 32 - 1) (fun v => .write (BitVec.ofNat 32 v)) operand (encodeWrite operand) :=
  operandAnswer_of_operandU32 .write operand

theorem encodeRead_answer (operand : Option Int) :
    OperandAnswer 63 (fun v => .read (BitVec.ofNat 8 v)) operand (encodeRead operand) := by
  rcases operandOffset_cases operand with ⟨h, e⟩ | ⟨v, h, hv, e⟩ | ⟨v, hv, h, e⟩
  · exact .inl ⟨h, by rw [encodeRead, e]; rfl⟩
  · exact .inr (.inl ⟨v, h, hv, by rw [encodeRead, e]; rfl⟩)
  · exact .inr (.inr ⟨v, by omega, h, by rw [encodeRead, e]; rfl⟩)

section Answer
variable {bound : Int} {emit : Nat → Instr} {operand : Option Int} {answer : Except EncodeErrorKind (List Byte)}
  (h : OperandAnswer bound emit operand answer)
include h

theorem OperandAnswer.error_iff {kind : EncodeErrorKind} :
    answer = .error kind ↔ (kind = .missingOperand ∧ operand = none) ∨
      (kind = .operandOutOfRange ∧ ∃ v, operand = some v ∧ (v < 0 ∨ bound < v)) := by
  rcases h with ⟨rfl, rfl⟩ | ⟨v, rfl, hv, rfl⟩ | ⟨v, hv, rfl, rfl⟩
  · simp [eq_comm]
  · simp [eq_comm, hv]
  · simpa using fun _ => hv

theorem OperandAnswer.eq_ok {v : Nat} (ho : operand = some (v : Int)) (hv : (v : Int) ≤ bound) :
    answer = .ok (encode (emit v)) := by
  subst ho
  rcases h with ⟨hn, -⟩ | ⟨w, hw, hout, -⟩ | ⟨w, -, hw, e⟩
  · cases hn
  · cases hw; omega
  · rw [e, Int.natCast_inj.1 (Option.some_inj.1 hw)]

theorem OperandAnswer.exists_of_ok {bytes : List Byte} (hok : answer = .ok bytes) :
    ∃ v : Nat, (v : Int) ≤ bound ∧ operand = some (v : Int) ∧ bytes = encode (emit v) := by
  subst hok
  rcases h with ⟨-, e⟩ | ⟨_, -, -, e⟩ | ⟨v, hv, ho, e⟩
  · cases e
  · cases e
  · cases e; exact ⟨v, hv, ho, rfl⟩

end Answer

theorem encodeSgn_error_iff {policy : SgnOperandPolicy} {operand : Option Int} {kind : EncodeErrorKind} :
    encodeSgn policy operand = .error kind ↔
      kind = .unexpectedOperand ∧ policy = .reject ∧ ∃ v, operand = some v := by
  cases operand with
  | none => simp [encodeSgn]
  | some v =>
    cases policy with
    | ignore => simp [encodeSgn]
    | reject => simp [encodeSgn, eq_comm]

/-- Settles O9: by the mnemonic, then by what its operand check can answer. -/
theorem encodingErrorsFollowTheOrder : Obligations.EncodingErrorsFollowTheOrder := by
  rintro policy ⟨m, operand, line⟩ ⟨kind, l⟩
  rw [encodeSymbolic_error_iff, and_comm]
  refine and_congr_right' ?_
  rcases mnemonic_cases m with rfl | rfl | rfl | rfl | hm
  case inl => simp [(encodeLoad_answer operand).error_iff]
  case inr.inl => simp [(encodeRead_answer operand).error_iff]
  case inr.inr.inl => simp [(encodeWrite_answer operand).error_iff]
  case inr.inr.inr.inl => simp [encodeSgn_error_iff]
  case inr.inr.inr.inr =>
    rw [encodeOperand_unknown policy operand hm]
    simp only [List.mem_cons, List.not_mem_nil, or_false, not_or] at hm
    simp [hm, eq_comm]

/-- Settles O8: an operand in range is encoded as it is, and a 32-bit field's bytes are its base-256 digits. -/
theorem acceptedOperandsEncodeExactly : Obligations.AcceptedOperandsEncodeExactly := by
  intro policy line v
  refine ⟨fun hv => ⟨?load, ?write⟩, fun hv => ?read, rfl, fun _ => rfl⟩
  case load =>
    refine ⟨_, encodeSymbolic_ok_iff.2 ((encodeLoad_answer _).eq_ok rfl (by omega)), ?_⟩
    simp only [encode, List.map_cons, wordBytes_ofNat_toNat (show v < 2 ^ 32 by omega)]
    rfl
  case write =>
    refine ⟨_, encodeSymbolic_ok_iff.2 ((encodeWrite_answer _).eq_ok rfl (by omega)), ?_⟩
    simp only [encode, List.map_cons, wordBytes_ofNat_toNat (show v < 2 ^ 32 by omega)]
    rfl
  case read =>
    refine ⟨_, encodeSymbolic_ok_iff.2 ((encodeRead_answer _).eq_ok rfl (by omega)), ?_⟩
    simp only [encode, List.map_cons, List.map_nil, BitVec.toNat_ofNat, Nat.mod_eq_of_lt (show v < 2 ^ 8 by omega)]
    rfl

/-- What the encoder accepts is the bytes of a well-formed instruction that carries the symbolic one. -/
theorem exists_carries_of_encodeSymbolic_ok {policy : SgnOperandPolicy} {x : SymInstr} {bytes : List Byte}
    (h : encodeSymbolic policy x = .ok bytes) : ∃ i, bytes = encode i ∧ carries i x ∧ i.wellFormed = true := by
  obtain ⟨m, operand, line⟩ := x
  replace h : encodeOperand policy m operand = .ok bytes := encodeSymbolic_ok_iff.1 h
  rcases mnemonic_cases m with rfl | rfl | rfl | rfl | hm
  case inl =>
    obtain ⟨v, hv, rfl, rfl⟩ := (encodeLoad_answer operand).exists_of_ok h
    exact ⟨_, rfl, ⟨rfl, by rw [BitVec.toNat_ofNat, Nat.mod_eq_of_lt (by omega)]⟩, rfl⟩
  case inr.inl =>
    obtain ⟨v, hv, rfl, rfl⟩ := (encodeRead_answer operand).exists_of_ok h
    have hmod : (BitVec.ofNat 8 v).toNat = v := by rw [BitVec.toNat_ofNat, Nat.mod_eq_of_lt (by omega)]
    exact ⟨_, rfl, ⟨rfl, by rw [hmod]⟩, decide_eq_true (by omega)⟩
  case inr.inr.inl =>
    obtain ⟨v, hv, rfl, rfl⟩ := (encodeWrite_answer operand).exists_of_ok h
    exact ⟨_, rfl, ⟨rfl, by rw [BitVec.toNat_ofNat, Nat.mod_eq_of_lt (by omega)]⟩, rfl⟩
  case inr.inr.inr.inl => exact ⟨.sgn, encodeSgn_ok h, rfl, rfl⟩
  case inr.inr.inr.inr => rw [encodeOperand_unknown policy operand hm] at h; cases h

/-! ### Programs -/

section Program
variable {policy : SgnOperandPolicy}

theorem encodeProgram_cons_error_iff {x : SymInstr} {xs : List SymInstr} {e : EncodeError} :
    encodeProgram policy (x :: xs) = .error e ↔
      encodeSymbolic policy x = .error e ∨
        (∃ b, encodeSymbolic policy x = .ok b) ∧ encodeProgram policy xs = .error e := by
  rw [encodeProgram_cons]
  cases encodeSymbolic policy x with
  | error e' => simp
  | ok b => cases encodeProgram policy xs <;> simp [Except.map]

/-- The encoder's loop fails at the first instruction that fails. -/
theorem encodeProgram_error_iff {xs : List SymInstr} {e : EncodeError} :
    encodeProgram policy xs = .error e ↔
      ∃ before x after, xs = before ++ x :: after ∧
        (∀ y ∈ before, ∃ b, encodeSymbolic policy y = .ok b) ∧ encodeSymbolic policy x = .error e := by
  induction xs with
  | nil => simp
  | cons x xs ih =>
    rw [encodeProgram_cons_error_iff, ih]
    constructor
    · rintro (hx | ⟨hx, before, y, after, rfl, hbefore, hy⟩)
      · exact ⟨[], x, xs, rfl, by simp, hx⟩
      · exact ⟨x :: before, y, after, rfl, List.forall_mem_cons.2 ⟨hx, hbefore⟩, hy⟩
    · rintro ⟨_ | ⟨z, before⟩, y, after, hsplit, hbefore, hy⟩
      · cases hsplit; exact .inl hy
      · cases hsplit
        obtain ⟨hz, hbefore⟩ := List.forall_mem_cons.1 hbefore
        exact .inr ⟨hz, before, y, after, rfl, hbefore, hy⟩

/-- An accepted program is the bytes of well-formed instructions that carry the symbolic ones, one for one. -/
theorem exists_carries_of_encodeProgram_ok {xs : List SymInstr} {code : List Byte} (h : encodeProgram policy xs = .ok code) :
    ∃ is, code = encodeAll is ∧ List.Forall₂ carries is xs ∧ ∀ i ∈ is, i.wellFormed = true := by
  induction xs generalizing code with
  | nil => cases h; exact ⟨[], rfl, .nil, by simp⟩
  | cons x xs ih =>
    obtain ⟨b, rest, hx, hxs, rfl⟩ := encodeProgram_cons_ok_iff.1 h
    obtain ⟨i, rfl, hcarries, hwf⟩ := exists_carries_of_encodeSymbolic_ok hx
    obtain ⟨is, rfl, hall, hwfs⟩ := ih hxs
    exact ⟨i :: is, rfl, .cons hcarries hall, List.forall_mem_cons.2 ⟨hwf, hwfs⟩⟩

end Program

/-- Settles O11: by induction on the program, one instruction at a time as R108's loop takes them. -/
theorem programEncodingFailsFast : Obligations.ProgramEncodingFailsFast :=
  ⟨fun _ _ _ => encodeProgram_error_iff, fun _ => rfl⟩

/-- Settles O12: an accepted program is a concatenation of encodings, which decoding inverts, whole and at each start offset. -/
theorem encodedProgramDecodesToItsSource : Obligations.EncodedProgramDecodesToItsSource := by
  intro policy xs code h
  obtain ⟨is, rfl, hcarries, hwf⟩ := exists_carries_of_encodeProgram_ok h
  refine ⟨is, (programDecodingInvertsConcatenation _ _).2 rfl, hcarries, hwf, fun k i hk => ?_⟩
  simpa using decode_startOffset hk []

end Sys2Proof.Machine

/-! PROOFS. The instructions (R149 to R160): what each execute part answers by the shape of the stack, and its lift to the
meaning. -/

namespace Sys2Proof.Machine

/-! ### From the execute part to the meaning -/

theorem completedTo_complete (s : State) (n : Nat) (w : Work) : s.CompletedTo (s.complete n w) n :=
  ⟨rfl, rfl, rfl, rfl, rfl, rfl⟩

theorem faultedTo_takeError (s : State) (kind : ErrorKind) : s.FaultedTo (s.takeError kind) kind :=
  ⟨rfl, rfl, rfl, rfl, rfl, rfl, rfl⟩

theorem complete_status_ne_faulted (s : State) (n : Nat) (w : Work) : (s.complete n w).status ≠ .faulted :=
  statusAt_ne_faulted _ _

section Lift
variable {i : Instr} {s t : State} {w : Work} {kind : ErrorKind}

theorem exec_of_executePart_ok (h : executePart s.params i s.work = .ok w) : exec i s = .next (s.complete i.size w) := by
  rw [exec_eq_settle, h, settle_ok]

theorem exec_of_executePart_error (h : executePart s.params i s.work = .error kind) : exec i s = .next (s.takeError kind) := by
  rw [exec_eq_settle, h, settle_error]

theorem exists_completedTo (h : executePart s.params i s.work = .ok w) :
    ∃ t, exec i s = .next t ∧ s.CompletedTo t i.size ∧ t.stack = w.stack ∧ t.dmem = w.dmem :=
  ⟨_, exec_of_executePart_ok h, completedTo_complete .., rfl, rfl⟩

theorem exists_faultedTo (h : executePart s.params i s.work = .error kind) :
    ∃ t, exec i s = .next t ∧ s.FaultedTo t kind :=
  ⟨_, exec_of_executePart_error h, faultedTo_takeError ..⟩

/-- An instruction that leaves `Faulted` with an error had that error from its execute part. -/
theorem executePart_error_of_faultedTo (h : exec i s = .next t) (hf : s.FaultedTo t kind) :
    executePart s.params i s.work = .error kind := by
  obtain ⟨hstatus, herr, -⟩ := hf
  rcases exec_cases i s with ⟨w, -, e⟩ | ⟨k, hk, e⟩ <;> (rw [e] at h; cases h)
  · exact absurd hstatus (complete_status_ne_faulted s i.size w)
  · cases herr; exact hk

end Lift

/-! ### The three instructions that pop -/

/-- The data address that an instruction computes from the entry it pops, `none` for one that pops nothing (R161). -/
def dataAddress (top : Int) : Instr → Option Int
  | .load _ => none
  | .read o => some (baseOffsetAddress top o)
  | .write a => some (absoluteAddress a)
  | .sgn => some (stackAddress top)

theorem exists_dataAddress {i : Instr} (h : ∀ v, i ≠ .load v) (top : Int) : ∃ a, dataAddress top i = some a := by
  cases i with
  | load v => exact absurd rfl (h v)
  | read o => exact ⟨_, rfl⟩
  | write a => exact ⟨_, rfl⟩
  | sgn => exact ⟨_, rfl⟩

section Pop
variable {p : Params} {i : Instr} {w : Work} {below : List Int} {top : Int}

/-- R160: the pop comes first. -/
theorem executePart_of_stack_nil (h : ∀ v, i ≠ .load v) (hw : w.stack = []) :
    executePart p i w = .error .stackUnderflow := by
  obtain ⟨stack, dmem⟩ := w
  subst hw
  cases i with
  | load v => exact absurd rfl (h v)
  | read o => rfl
  | write a => rfl
  | sgn => rfl

/-- R63: the address check comes next. -/
theorem executePart_of_not_inBounds {a : Int} (hw : w.stack = below ++ [top]) (ha : dataAddress top i = some a)
    (hn : ¬ (0 ≤ a ∧ a < p.dataMemSize)) : executePart p i w = .error .invalidAddress := by
  cases i with
  | load v => cases ha
  | read o => cases ha; simp [executePart, readMem, hw, checkAddress_error hn, bind, Except.bind]
  | write a => cases ha; simp [executePart, writeMem, hw, checkAddress_error hn, bind, Except.bind]
  | sgn => cases ha; simp [executePart, sgnMem, hw, checkAddress_error hn, bind, Except.bind]

end Pop

section Complete
variable {p : Params} {w : Work} {below : List Int} {top : Int} {a : Nat}

theorem executePart_load (v : Word) (hcap : p.stackCapacity ≠ some w.stack.length) :
    executePart p (.load v) w = .ok { w with stack := w.stack ++ [constantValue v] } := by
  simp [executePart, loadConst, push_of_not_full _ hcap, bind, Except.bind, pure, Except.pure]

theorem executePart_read {o : Byte} (hw : w.stack = below ++ [top]) (ha : baseOffsetAddress top o = a)
    (hlt : a < p.dataMemSize) (hcap : p.stackCapacity ≠ some below.length) :
    executePart p (.read o) w = .ok { w with stack := below ++ [byteValue (w.dmem.read a)] } := by
  simp [executePart, readMem, hw, ha, checkAddress_ok ⟨Int.natCast_nonneg a, Int.ofNat_lt.2 hlt⟩,
    push_of_not_full _ hcap, bind, Except.bind, pure, Except.pure]

theorem executePart_write {address : Word} (hw : w.stack = below ++ [top]) (hlt : address.toNat < p.dataMemSize) :
    executePart p (.write address) w = .ok { stack := below, dmem := w.dmem.write address.toNat (storedByte top) } := by
  simp [executePart, writeMem, hw, absoluteAddress,
    checkAddress_ok ⟨Int.natCast_nonneg address.toNat, Int.ofNat_lt.2 hlt⟩,
    bind, Except.bind, pure, Except.pure]

theorem executePart_sgn (hw : w.stack = below ++ [(a : Int)]) (hlt : a < p.dataMemSize)
    (hcap : p.stackCapacity ≠ some below.length) :
    executePart p .sgn w = .ok { w with stack := below ++ [signOf (sext8 (w.dmem.read a))] } := by
  simp [executePart, sgnMem, hw, stackAddress, checkAddress_ok ⟨Int.natCast_nonneg a, Int.ofNat_lt.2 hlt⟩,
    push_of_not_full _ hcap, bind, Except.bind, pure, Except.pure]

end Complete

/-- Within the capacity there is room again for one entry that was popped. -/
theorem State.WithinCapacity.room {s : State} (h : s.WithinCapacity) {below : List Int} {top : Int}
    (hs : s.stack = below ++ [top]) : s.params.stackCapacity ≠ some below.length := by
  intro hcap
  have := h _ hcap
  simp [hs] at this

theorem baseOffsetAddress_eq (base : Int) (o : Byte) : baseOffsetAddress base o = base + ((o.toNat % 64 : Nat) : Int) := by
  rw [baseOffsetAddress, effectiveOffset_eq_mod]

theorem signOf_eq_sign (v : Int) : signOf v = Int.sign v := by
  unfold signOf
  split_ifs with hpos hneg
  · exact (Int.sign_eq_one_of_pos hpos).symm
  · exact (Int.sign_eq_neg_one_of_neg hneg).symm
  · rw [show v = 0 by omega, Int.sign_zero]

theorem storedByte_eq_ofInt (v : Int) : storedByte v = BitVec.ofInt 8 v := by
  apply BitVec.eq_of_toNat_eq
  have := storedByte_toNat v
  rw [BitVec.toNat_ofInt]
  omega

/-- Settles O13: `LOAD_CONST` is one push. -/
theorem loadConstPushesItsField : Obligations.LoadConstPushesItsField := by
  intro v s
  refine ⟨⟨rfl, rfl⟩, fun hroom => exists_completedTo (executePart_load v hroom), fun hfull => exists_faultedTo ?_⟩
  simp only [executePart, loadConst, push_of_full _ hfull, bind, Except.bind, work_stack]

/-- Settles O14: pop, check, push, in the order of R152. -/
theorem readMemPushesTheAddressedByte : Obligations.ReadMemPushesTheAddressedByte := by
  intro o s hcap
  refine ⟨⟨rfl, rfl⟩, fun hs => exists_faultedTo (executePart_of_stack_nil (by simp) hs), fun below base hs => ⟨?_, ?_⟩⟩
  all_goals rw [← baseOffsetAddress_eq]
  · exact fun hn => exists_faultedTo (executePart_of_not_inBounds hs rfl hn)
  · exact fun a ha hlt => exists_completedTo (executePart_read hs ha.symm hlt (hcap.room hs))

/-- Settles O15: pop, check, store, in the order of R154. -/
theorem writeMemStoresTheLowByte : Obligations.WriteMemStoresTheLowByte := by
  intro a s hwf
  refine ⟨⟨rfl, rfl⟩, fun hs => exists_faultedTo (executePart_of_stack_nil (by simp) hs), fun below value hs => ⟨?_, ?_⟩⟩
  · intro hge
    exact exists_faultedTo (executePart_of_not_inBounds hs rfl (by simp only [absoluteAddress]; omega))
  · intro hlt
    obtain ⟨t, ht, hcompleted, hstack, hdmem⟩ := exists_completedTo (executePart_write hs hlt)
    refine ⟨t, ht, hcompleted, hstack, ?_, fun b hb => ?_⟩
    · rw [hdmem, work_dmem, read_write_same hwf, storedByte_toNat]
    · rw [hdmem, work_dmem, read_write_other _ _ hb]

/-- Settles O16: pop, check, push, in the order of R156. -/
theorem sgnPushesTheSignOfTheByte : Obligations.SgnPushesTheSignOfTheByte := by
  intro s hcap
  refine ⟨rfl, fun hs => exists_faultedTo (executePart_of_stack_nil (by simp) hs), fun below top hs => ⟨?_, ?_⟩⟩
  · exact fun hn => exists_faultedTo (executePart_of_not_inBounds hs rfl hn)
  · rintro a rfl hlt
    rw [← sext8_eq_toInt, ← signOf_eq_sign]
    exact exists_completedTo (executePart_sgn hs hlt (hcap.room hs))

/-- Settles O17: the sign pushed is that of the byte's signed reading, which R157's ranges decide. -/
theorem signFollowsTheThreeByteRanges : Obligations.SignFollowsTheThreeByteRanges := by
  intro s below a hcap hs hlt
  obtain ⟨t, ht, -, hstack, -⟩ := exists_completedTo (executePart_sgn hs hlt (hcap.room hs))
  have := (s.dmem.read a).isLt
  refine ⟨t, _, ht, hstack, ?_⟩
  simp only [work_dmem, signOf, sext8]
  split_ifs <;> omega

theorem exec_read_congr {o p : Byte} (h : o.toNat % 64 = p.toNat % 64) (s : State) : exec (.read o) s = exec (.read p) s := by
  have haddress (base : Int) : baseOffsetAddress base o = baseOffsetAddress base p := by
    simp only [baseOffsetAddress_eq, h]
  have hpart : executePart s.params (.read o) s.work = executePart s.params (.read p) s.work := by
    simp only [executePart, readMem, haddress]
  rw [exec_eq_settle, exec_eq_settle, hpart]
  cases executePart s.params (.read p) s.work with
  | ok w => rfl
  | error k => rfl

/-- Settles O18: the bits 7:6 are kept by decoding, left out of the address, and clear in what the encoder accepts. -/
theorem reservedOffsetBitsAreIgnored : Obligations.ReservedOffsetBitsAreIgnored := by
  refine ⟨fun o rest => decodeBytes_opRead (o :: rest), fun o p s h => exec_read_congr h s, fun policy x o h => ?encoder⟩
  case encoder =>
    obtain ⟨i, hi, -, hwf⟩ := exists_carries_of_encodeSymbolic_ok h
    cases i with
    | load v => cases hi
    | read off =>
      cases hi
      exact Nat.lt_succ_of_le (of_decide_eq_true hwf)
    | write a => cases hi
    | sgn => cases hi

/-- Settles O19: each of the three pops first. -/
theorem emptyStackUnderflowsFirst : Obligations.EmptyStackUnderflowsFirst :=
  fun _ _ hs hi => exists_faultedTo (executePart_of_stack_nil hi hs)

/-- Settles O21: with `N = 0` no address is in bounds. -/
theorem noDataMemoryFailsEveryAccess : Obligations.NoDataMemoryFailsEveryAccess := by
  intro i s hN hs hi
  obtain ⟨hnil, -⟩ | ⟨below, top, hstack, -⟩ := pop_cases s.stack
  · exact absurd hnil hs
  · obtain ⟨a, ha⟩ := exists_dataAddress hi top
    exact exists_faultedTo (executePart_of_not_inBounds hstack ha (by omega))

/-- `READ_MEM` and `SGN` push one entry for the one they popped, so within the capacity only `LOAD_CONST` overflows. -/
theorem load_of_executePart_stackOverflow {p : Params} {i : Instr} {w : Work}
    (hcap : ∀ below top, w.stack = below ++ [top] → p.stackCapacity ≠ some below.length)
    (h : executePart p i w = .error .stackOverflow) : (∃ v, i = .load v) ∧ p.stackCapacity = some w.stack.length := by
  cases i with
  | load v =>
    obtain ⟨-, e⟩ | ⟨hfull, -⟩ := loadConst_cases p v w
    · rw [executePart, e] at h; cases h
    · exact ⟨⟨v, rfl⟩, hfull⟩
  | read o =>
    rcases readMem_cases p o w with ⟨-, e⟩ | ⟨_, _, hw, ⟨-, e⟩ | ⟨-, -, ⟨hfull, -⟩ | ⟨-, e⟩⟩⟩
    case inr.inr.inl => exact absurd hfull (hcap _ _ hw)
    all_goals rw [executePart, e] at h; cases h
  | write a =>
    rcases writeMem_cases p a w with ⟨-, e⟩ | ⟨_, _, _, ⟨-, e⟩ | ⟨-, e⟩⟩ <;> (rw [executePart, e] at h; cases h)
  | sgn =>
    rcases sgnMem_cases p w with ⟨-, e⟩ | ⟨_, _, hw, ⟨-, e⟩ | ⟨-, -, ⟨hfull, -⟩ | ⟨-, e⟩⟩⟩
    case inr.inr.inl => exact absurd hfull (hcap _ _ hw)
    all_goals rw [executePart, e] at h; cases h

/-- Settles O20: the overflow is the execute part's, and of the four only `LOAD_CONST`'s pushes more than it popped. -/
theorem onlyLoadConstCanOverflow : Obligations.OnlyLoadConstCanOverflow := by
  intro i s t hcap h hf
  exact load_of_executePart_stackOverflow (fun _ _ => hcap.room) (executePart_error_of_faultedTo h hf)

/-- Settles O22: the write leaves the entry below and room for one more, and a read sees the byte stored. -/
theorem readSeesTheByteJustWritten : Obligations.ReadSeesTheByteJustWritten := by
  intro s a o below base value hwf hcap hs hlt
  rw [show below ++ [base, value] = (below ++ [base]) ++ [value] by simp] at hs
  obtain ⟨t, ht, ⟨-, -, -, -, hparams, -⟩, hstack, hdmem⟩ := exists_completedTo (executePart_write hs hlt)
  have hread : t.dmem.read a.toNat = storedByte value := by rw [hdmem]; exact read_write_same hwf ..
  have hcap' : t.params.stackCapacity ≠ some below.length := by
    intro hk
    have := hcap _ (hparams ▸ hk)
    simp [hs] at this
  rw [← hparams] at hlt
  refine ⟨t, ht, fun ha => ?read, fun ha => ?sgn⟩
  case read =>
    rw [← baseOffsetAddress_eq] at ha
    obtain ⟨u, hu, -, hustack, -⟩ := exists_completedTo (executePart_read hstack ha hlt hcap')
    exact ⟨u, hu, by rw [hustack, work_dmem, hread, byteValue, storedByte_toNat]⟩
  case sgn =>
    subst ha
    obtain ⟨u, hu, -, hustack, -⟩ := exists_completedTo (executePart_sgn hstack hlt hcap')
    exact ⟨u, hu, by rw [hustack, work_dmem, hread, signOf_eq_sign, sext8_eq_toInt, storedByte_eq_ofInt]⟩

/-- What each instruction leaves where its execute part answers. -/
theorem executePart_ok_cases {p : Params} {i : Instr} {w w' : Work} (h : executePart p i w = .ok w') :
    (∃ v, i = .load v ∧ p.stackCapacity ≠ some w.stack.length ∧
      w' = { w with stack := w.stack ++ [constantValue v] }) ∨
    (∃ o below base, i = .read o ∧ w.stack = below ++ [base] ∧ p.stackCapacity ≠ some below.length ∧
      w' = { w with stack := below ++ [byteValue (w.dmem.read (baseOffsetAddress base o).toNat)] }) ∨
    (∃ a below value, i = .write a ∧ w.stack = below ++ [value] ∧ a.toNat < p.dataMemSize ∧
      w' = { stack := below, dmem := w.dmem.write a.toNat (storedByte value) }) ∨
    (∃ below top, i = .sgn ∧ w.stack = below ++ [top] ∧ p.stackCapacity ≠ some below.length ∧
      w' = { w with stack := below ++ [signOf (sext8 (w.dmem.read top.toNat))] }) := by
  cases i with
  | load v =>
    rcases loadConst_cases p v w with ⟨hcap, e⟩ | ⟨-, e⟩ <;> (rw [executePart, e] at h; cases h)
    exact .inl ⟨v, rfl, hcap, rfl⟩
  | read o =>
    rcases readMem_cases p o w with ⟨-, e⟩ | ⟨below, base, hw, ⟨-, e⟩ | ⟨-, -, ⟨-, e⟩ | ⟨hcap, e⟩⟩⟩ <;>
      (rw [executePart, e] at h; cases h)
    exact .inr (.inl ⟨o, below, base, rfl, hw, hcap, rfl⟩)
  | write a =>
    rcases writeMem_cases p a w with ⟨-, e⟩ | ⟨below, value, hw, ⟨-, e⟩ | ⟨hlt, e⟩⟩ <;>
      (rw [executePart, e] at h; cases h)
    exact .inr (.inr (.inl ⟨a, below, value, rfl, hw, hlt, rfl⟩))
  | sgn =>
    rcases sgnMem_cases p w with ⟨-, e⟩ | ⟨below, top, hw, ⟨-, e⟩ | ⟨-, -, ⟨-, e⟩ | ⟨hcap, e⟩⟩⟩ <;>
      (rw [executePart, e] at h; cases h)
    exact .inr (.inr (.inr ⟨below, top, rfl, hw, hcap, rfl⟩))

/-- Data memory after an execute part: as before, or with one cell below `N` written by `WRITE_MEM`. -/
theorem executePart_ok_dmem {p : Params} {i : Instr} {w w' : Work} (h : executePart p i w = .ok w') :
    w'.dmem = w.dmem ∨ (∃ a v, i = .write a ∧ a.toNat < p.dataMemSize ∧ w'.dmem = w.dmem.write a.toNat v) := by
  rcases executePart_ok_cases h with ⟨_, -, -, rfl⟩ | ⟨_, _, _, -, -, -, rfl⟩ | ⟨a, _, _, hi, -, hlt, rfl⟩ |
    ⟨_, _, -, -, -, rfl⟩
  · exact .inl rfl
  · exact .inl rfl
  · exact .inr ⟨a, _, hi, hlt, rfl⟩
  · exact .inl rfl

theorem exec_dmem {i : Instr} {s t : State} (h : exec i s = .next t) :
    t.dmem = s.dmem ∨ (∃ a v, i = .write a ∧ a.toNat < s.params.dataMemSize ∧ t.dmem = s.dmem.write a.toNat v) := by
  rcases exec_cases i s with ⟨w, hw, e⟩ | ⟨k, -, e⟩ <;> (rw [e] at h; cases h)
  · exact executePart_ok_dmem hw
  · exact .inl rfl

/-- Settles O23: data memory after an instruction is as before or has the cell written that a `WRITE_MEM` names, below `N`. -/
theorem onlyWriteMemChangesDataMemory : Obligations.OnlyWriteMemChangesDataMemory := by
  intro i s t h
  obtain hsame | ⟨a, v, rfl, hlt, hwritten⟩ := exec_dmem h
  · simp [hsame]
  · refine ⟨fun hn => absurd rfl (hn a), fun a' ha' b hb => ?_, fun b hb => ?_⟩
    · cases ha'
      rw [hwritten, read_write_other _ _ hb]
    · rw [hwritten, read_write_other _ _ (by omega)]

/-- Settles O24: the two execute parts are one and the same, so both states settle the same answer. -/
theorem resultsDependOnStackAndMemoryAlone : Obligations.ResultsDependOnStackAndMemoryAlone := by
  intro i s s' t t' hstack hdmem hparams h h'
  have hpart : executePart s'.params i s'.work = executePart s.params i s.work := by
    rw [State.work, State.work, hstack, hdmem, hparams]
  rw [exec_eq_settle] at h h'
  rw [hpart] at h'
  cases h
  cases h'
  cases executePart s.params i s.work with
  | ok w => simp [statusAt_ne_faulted]
  | error k => simp [hdmem]

end Sys2Proof.Machine

/-! PROOFS. The step (R130 to R135): what it does by what decoding at `ip` answers, and from that the table of run states, the
advance of `ip` and the error record. -/

namespace Sys2Proof

/-! ### Illegal opcodes (R86) -/

theorem decodeU32_ne_illegal (build : Word → Instr) (bs : List Byte) : decodeU32 build bs ≠ .illegalOpcode := by
  unfold decodeU32
  split <;> simp

theorem decodeU8_ne_illegal (build : Byte → Instr) (bs : List Byte) : decodeU8 build bs ≠ .illegalOpcode := by
  cases bs <;> simp [decodeU8]

/-- Decoding refuses by the opcode byte alone, whatever the bytes after it. -/
theorem decodeBytes_illegal_iff {op : Byte} {rest : List Byte} :
    decodeBytes (op :: rest) = .illegalOpcode ↔ op ≠ opLoad ∧ op ≠ opRead ∧ op ≠ opWrite ∧ op ≠ opSgn := by
  refine ⟨fun h => ⟨?_, ?_, ?_, ?_⟩, fun ⟨hl, hr, hw, hs⟩ => decodeBytes_illegal rest hl hr hw hs⟩ <;> rintro rfl
  · exact decodeU32_ne_illegal _ _ h
  · exact decodeU8_ne_illegal _ _ h
  · exact decodeU32_ne_illegal _ _ h
  · cases h

end Sys2Proof

namespace Sys2Proof.Machine

/-! ### One step -/

/-- Why the instruction at `ip` takes an error: fetch and decode found it (R133), or its execute part raised it. -/
inductive State.Fails (s : State) : ErrorKind → Prop where
  | execute {i : Instr} {kind : ErrorKind} (hd : decode s.code s.ip = .ok i i.size)
      (he : executePart s.params i s.work = .error kind) : s.Fails kind
  | illegalOpcode (hd : decode s.code s.ip = .illegalOpcode) : s.Fails .illegalOpcode
  | truncatedInstruction (hd : decode s.code s.ip = .truncatedInstruction) : s.Fails .truncatedInstruction

section Step
variable {s t : State}

/-- A step of a run that has not ended halts at the end of the program, completes the instruction at `ip`, or takes an error. -/
theorem step_outcome (h : s.Active) :
    (s.code.length ≤ s.ip ∧ step s = .next s.haltAtEnd) ∨
    (s.ip < s.code.length ∧ ∃ i w, decode s.code s.ip = .ok i i.size ∧ s.ip + i.size ≤ s.code.length ∧
      executePart s.params i s.work = .ok w ∧ step s = .next (s.complete i.size w)) ∨
    (s.ip < s.code.length ∧ ∃ kind, s.Fails kind ∧ step s = .next (s.takeError kind)) := by
  rcases step_cases h with hend | ⟨hlt, ⟨i, hd, e⟩ | ⟨hd, e⟩ | ⟨hd, e⟩⟩
  · exact .inl hend
  · obtain ⟨-, hle⟩ := decode_ok hd
    rcases exec_cases i s with ⟨w, hw, e'⟩ | ⟨kind, hk, e'⟩
    · exact .inr (.inl ⟨hlt, i, w, hd, hle, hw, e.trans e'⟩)
    · exact .inr (.inr ⟨hlt, kind, .execute hd hk, e.trans e'⟩)
  · exact .inr (.inr ⟨hlt, _, .illegalOpcode hd, e⟩)
  · exact .inr (.inr ⟨hlt, _, .truncatedInstruction hd, e⟩)

/-- The same, of a step that is known to have a next state. -/
theorem next_outcome (h : step s = .next t) :
    (s.code.length ≤ s.ip ∧ t = s.haltAtEnd) ∨
    (s.ip < s.code.length ∧ ∃ i w, decode s.code s.ip = .ok i i.size ∧ s.ip + i.size ≤ s.code.length ∧
      executePart s.params i s.work = .ok w ∧ t = s.complete i.size w) ∨
    (s.ip < s.code.length ∧ ∃ kind, s.Fails kind ∧ t = s.takeError kind) := by
  have hnext {u : State} (hu : step s = .next u) : t = u := by rw [hu] at h; cases h; rfl
  rcases step_outcome (not_ended_of_step h) with ⟨hle, e⟩ | ⟨hlt, i, w, hd, hle, hw, e⟩ | ⟨hlt, kind, hk, e⟩
  · exact .inl ⟨hle, hnext e⟩
  · exact .inr (.inl ⟨hlt, i, w, hd, hle, hw, hnext e⟩)
  · exact .inr (.inr ⟨hlt, kind, hk, hnext e⟩)

theorem step_of_decode_ok (h : s.Active) {i : Instr} {n : Nat} (hd : decode s.code s.ip = .ok i n) : step s = exec i s := by
  obtain ⟨rfl, hle⟩ := decode_ok hd
  have := size_pos i
  rcases step_cases h with ⟨hend, -⟩ | ⟨-, ⟨j, hj, e⟩ | ⟨hj, -⟩ | ⟨hj, -⟩⟩
  · omega
  · rw [hd] at hj; cases hj; exact e
  · rw [hd] at hj; cases hj
  · rw [hd] at hj; cases hj

theorem step_of_decode_illegal (h : s.Active) (hlt : s.ip < s.code.length) (hd : decode s.code s.ip = .illegalOpcode) :
    step s = .next (s.takeError .illegalOpcode) := by
  rcases step_cases h with ⟨hend, -⟩ | ⟨-, ⟨j, hj, -⟩ | ⟨-, e⟩ | ⟨hj, -⟩⟩
  · omega
  · rw [hd] at hj; cases hj
  · exact e
  · rw [hd] at hj; cases hj

theorem step_of_decode_truncated (h : s.Active) (hlt : s.ip < s.code.length)
    (hd : decode s.code s.ip = .truncatedInstruction) : step s = .next (s.takeError .truncatedInstruction) := by
  rcases step_cases h with ⟨hend, -⟩ | ⟨-, ⟨j, hj, -⟩ | ⟨hj, -⟩ | ⟨-, e⟩⟩
  · omega
  · rw [hd] at hj; cases hj
  · rw [hd] at hj; cases hj
  · exact e

theorem step_params (h : step s = .next t) : t.params = s.params := by
  rcases next_outcome h with ⟨-, rfl⟩ | ⟨-, _, _, -, -, -, rfl⟩ | ⟨-, _, -, rfl⟩
  · exact haltAtEnd_params s
  · exact complete_params ..
  · exact takeError_params ..

/-- An error of `IllegalOpcode` is one of decoding: no execute part raises it. -/
theorem State.Fails.decode_illegal (h : s.Fails .illegalOpcode) : decode s.code s.ip = .illegalOpcode := by
  cases h with
  | execute hd he => simpa using executePart_error he
  | illegalOpcode hd => exact hd

end Step

/-- Settles O27: the step's only case for a decoded instruction. -/
theorem stepRunsTheDecodedInstruction : Obligations.StepRunsTheDecodedInstruction :=
  fun _ _ _ hactive hd => step_of_decode_ok hactive hd

/-- Settles O26: neither a halt, nor a completion, nor an error writes a parameter. -/
theorem noStepChangesTheParameters : Obligations.NoStepChangesTheParameters :=
  fun _ _ => step_params

/-- Settles O29: decoding at `ip` follows R89's case table, and the step follows what decoding answers. -/
theorem dispatchAndOperandRead : Obligations.DispatchAndOperandRead := by
  intro s op hactive hop
  obtain ⟨hlt, -⟩ := List.getElem?_eq_some_iff.1 hop
  obtain ⟨hload, hread, hwrite, hsgn, hillegal⟩ := decodeFollowsTheCaseTable s.code s.ip op hop
  have truncated (hd : decode s.code s.ip = .truncatedInstruction) :
      ∃ t, step s = .next t ∧ s.FaultedTo t .truncatedInstruction :=
    ⟨_, step_of_decode_truncated hactive hlt hd, faultedTo_takeError ..⟩
  refine ⟨fun h => ?load, fun h => ?read, fun h => ?write, fun h => ?sgn, fun hl hr hw hs => ?illegal, fun i t => ?advance⟩
  case load =>
    obtain ⟨hfew, hall⟩ := hload h
    exact ⟨fun hn => truncated (hfew hn), fun hn => (hall hn).imp fun v hv => hv.imp_right (step_of_decode_ok hactive)⟩
  case read =>
    obtain ⟨hfew, hall⟩ := hread h
    exact ⟨fun hn => truncated (hfew hn), fun b hb => step_of_decode_ok hactive (hall b hb)⟩
  case write =>
    obtain ⟨hfew, hall⟩ := hwrite h
    exact ⟨fun hn => truncated (hfew hn), fun hn => (hall hn).imp fun a ha => ha.imp_right (step_of_decode_ok hactive)⟩
  case sgn => exact step_of_decode_ok hactive (hsgn h)
  case illegal => exact ⟨_, step_of_decode_illegal hactive hlt (hillegal hl hr hw hs), faultedTo_takeError ..⟩
  case advance =>
    intro h hne
    rcases exec_cases i s with ⟨w, -, e⟩ | ⟨k, -, e⟩ <;> (rw [e] at h; cases h)
    · exact complete_ip ..
    · exact absurd rfl hne

/-- Settles O6: the opcode byte alone makes a decode illegal, and only an illegal decode raises `IllegalOpcode`. -/
theorem onlyFourOpcodesAreLegal : Obligations.OnlyFourOpcodesAreLegal := by
  refine ⟨fun s op hactive hop => ?step, by decide +kernel, fun b0 b1 b2 b3 => ?operands⟩
  case step =>
    obtain ⟨hlt, -⟩ := List.getElem?_eq_some_iff.1 hop
    have hiff := decodeBytes_illegal_iff (op := op) (rest := s.code.drop (s.ip + 1))
    rw [← decode_eq_decodeBytes_cons hop] at hiff
    refine ⟨fun h => ⟨_, step_of_decode_illegal hactive hlt (hiff.2 h), faultedTo_takeError ..⟩, fun h => ?_⟩
    rcases step_outcome hactive with ⟨hend, -⟩ | ⟨-, i, w, -, -, -, e⟩ | ⟨-, kind, hk, e⟩
    · omega
    · exact ⟨_, e, fun r _ hf => (complete_status_ne_faulted s i.size w hf).elim⟩
    · refine ⟨_, e, fun r hr _ hkind => ?_⟩
      cases hr
      obtain rfl : kind = .illegalOpcode := hkind
      obtain ⟨hl, hr, hw, hs⟩ := hiff.1 hk.decode_illegal
      rcases h with h | h | h | h
      · exact hl h
      · exact hr h
      · exact hw h
      · exact hs h
  case operands =>
    exact ⟨decodeU32_ne_illegal .load [b0, b1, b2, b3], decodeU8_ne_illegal .read [b0],
      decodeU32_ne_illegal .write [b0, b1, b2, b3]⟩

/-- Settles O30: the four ways a step of a run that has not ended can go are the rows of R130's table. -/
theorem runStateChangesByTheTable : Obligations.RunStateChangesByTheTable := by
  refine ⟨fun s hactive => ?active, fun s h => step_ended h⟩
  rcases step_outcome hactive with ⟨hend, e⟩ | ⟨hlt, i, w, -, hle, -, e⟩ | ⟨hlt, kind, -, e⟩
  · exact ⟨_, e, .inl ⟨hend, rfl, rfl, rfl, rfl, rfl⟩⟩
  · rcases hle.eq_or_lt with heq | hless
    · exact ⟨_, e, .inr (.inr (.inl ⟨hlt, rfl, heq, if_pos heq⟩))⟩
    · exact ⟨_, e, .inr (.inl ⟨hlt, rfl, hless, if_neg hless.ne⟩)⟩
  · exact ⟨_, e, .inr (.inr (.inr ⟨hlt, kind, faultedTo_takeError ..⟩))⟩

theorem size_cases (i : Instr) : i.size = 1 ∨ i.size = 2 ∨ i.size = 5 := by
  cases i <;> simp [Instr.size]

/-- Settles O31: with bytes left, a step that does not fault completes the decoded instruction, whose bytes were all there. -/
theorem completedStepsAdvanceBySize : Obligations.CompletedStepsAdvanceBySize := by
  intro s t hlt h hne
  rcases next_outcome h with ⟨hend, -⟩ | ⟨-, i, w, hd, hle, hw, rfl⟩ | ⟨-, kind, -, rfl⟩
  · omega
  · exact ⟨i, hd, exec_of_executePart_ok hw, completedTo_complete .., size_cases i, hle⟩
  · exact absurd rfl hne

/-- Settles O32: only the error case of a step ends in `Faulted`. -/
theorem everyErrorIsPrecise : Obligations.EveryErrorIsPrecise := by
  intro s t h hf
  rcases next_outcome h with ⟨-, rfl⟩ | ⟨-, i, w, -, -, -, rfl⟩ | ⟨-, kind, -, rfl⟩
  · cases hf
  · exact (complete_status_ne_faulted s i.size w hf).elim
  · exact ⟨kind, faultedTo_takeError ..⟩

/-! ### A word placed at `ip` (R212, log entry 14) -/

theorem withFetchWord_active (s : State) (nbits w : Nat) : (s.withFetchWord nbits w).Active := by
  cases h : s.status <;> simp [State.Active, State.withFetchWord, RunStatus.fetching, h]

/-- The placed bytes stand at `ip`: what precedes them is as long as `ip`. -/
theorem decode_withFetchWord (s : State) (nbits w : Nat) :
    decode (s.withFetchWord nbits w).code (s.withFetchWord nbits w).ip =
      decodeBytes (tableBytes nbits w ++ s.code.drop (s.ip + 5)) := by
  have hlen : (s.code.take s.ip ++ List.replicate (s.ip - s.code.length) 0).length = s.ip := by
    rw [List.length_append, List.length_take, List.length_replicate]
    omega
  rw [← decode_append_length (s.code.take s.ip ++ List.replicate (s.ip - s.code.length) 0), hlen, ← List.append_assoc]
  rfl

theorem decodeBytes_tableBytes_of_some {nbits w : Nat} {i : Instr} (h : decodeTableWord nbits w = some i) :
    ∃ n, decodeBytes (tableBytes nbits w) = .ok i n := by
  unfold decodeTableWord at h
  cases hd : decodeBytes (tableBytes nbits w) with
  | ok j n => rw [hd] at h; cases h; exact ⟨n, rfl⟩
  | illegalOpcode => rw [hd] at h; cases h
  | truncatedInstruction => rw [hd] at h; cases h

/-- Settles O28: decoding at `ip` sees the placed word first, and the bytes after it change nothing. -/
theorem placedWordIsTheNextInstruction : Obligations.PlacedWordIsTheNextInstruction := by
  intro s nbits w i h
  obtain ⟨n, hn⟩ := decodeBytes_tableBytes_of_some h
  have hd := (decode_withFetchWord s nbits w).trans (decodeBytes_append_of_ok hn _)
  exact ⟨hd, step_of_decode_ok (withFetchWord_active s nbits w) hd⟩

end Sys2Proof.Machine

/-! PROOFS. Reset (R45, R213), and the invariant of runs: it holds where a run begins, and every step keeps it. -/

namespace Sys2Proof.Machine

/-- Settles O33: each field is `State.construct`'s own. -/
theorem constructionGivesTheResetValues : Obligations.ConstructionGivesTheResetValues :=
  ⟨fun _ _ => ⟨rfl, rfl, rfl, read_nil, rfl, rfl, rfl, rfl⟩, rfl⟩

@[simp] theorem launch_dmem (code : List Byte) (p : Params) (image : List Byte) :
    (State.launch code p image).dmem = Memory.ofBytes 0 (image.take p.dataMemSize) := rfl

/-- Settles O46: a launch writes the image's bytes below `N` into an empty data memory, and nothing else. -/
theorem launchHoldsItsImage : Obligations.LaunchHoldsItsImage := by
  intro code p image
  have hread (a : Nat) : (State.launch code p image).dmem.read a = (image.take p.dataMemSize).getD a 0#8 := by
    rw [launch_dmem, ← read_ofBytes 0, Nat.zero_add]
  refine ⟨fun a ha => ?_, fun a ha => ?_, rfl⟩ <;> rw [hread, List.getD_eq_getElem?_getD]
  · rw [List.getElem?_take_of_lt ha, List.getD_eq_getElem?_getD]
  · rw [List.getElem?_eq_none ((List.length_take_le _ _).trans ha), Option.getD_none]

/-! ### Where a run begins -/

/-- Nothing but data memory tells one start of a run from another. -/
theorem inv_construct_with_dmem (code : List Byte) (p : Params) {m : Memory} (hwf : m.wf)
    (hN : ∀ c ∈ m, c.1 < p.dataMemSize) :
    State.Inv { State.construct code p with dmem := m } where
  ipInCode := Nat.zero_le _
  dmemCanonical := hwf
  dmemInBounds := hN
  stackInRange _ := by simp
  withinCapacity _ _ _ := Nat.zero_le _
  countLeIp := le_rfl
  atReady _ := ⟨rfl, rfl, rfl⟩
  atRunning := nofun
  atHalted := nofun
  errExactlyAtFault := rfl

theorem inv_construct (code : List Byte) (p : Params) : (State.construct code p).Inv :=
  inv_construct_with_dmem code p wf_nil (by simp)

theorem launch_dmem_inBounds {code : List Byte} {p : Params} {image : List Byte} {c : Host.Cell}
    (h : c ∈ (State.launch code p image).dmem) : c.1 < p.dataMemSize := by
  obtain ⟨-, hlt⟩ := mem_ofBytes h
  rw [Nat.zero_add] at hlt
  exact hlt.trans_le (List.length_take_le ..)

/-- Settles O34: an image's memory is canonical and below `N`, and reset and construction have the empty one. -/
theorem constructionMeetsTheInvariant : Obligations.ConstructionMeetsTheInvariant :=
  ⟨inv_construct [] {}, inv_construct,
    fun code _ _ => inv_construct_with_dmem code _ (ofBytes_wf 0 _) fun _ => launch_dmem_inBounds (code := code)⟩

/-! ### Every step -/

/-- What an execute part leaves of the stack: a first part of it, alone or with one entry in the range of R34 pushed where the
capacity has room. -/
theorem executePart_ok_stack {p : Params} {i : Instr} {w w' : Work} (h : executePart p i w = .ok w') :
    ∃ below, below <+: w.stack ∧
      (w'.stack = below ∨
       ∃ v, (-1 ≤ v ∧ v ≤ 2 ^ 32 - 1) ∧ p.stackCapacity ≠ some below.length ∧ w'.stack = below ++ [v]) := by
  rcases executePart_ok_cases h with ⟨v, -, hcap, rfl⟩ | ⟨o, below, base, -, hw, hcap, rfl⟩ |
    ⟨_, below, _, -, hw, -, rfl⟩ | ⟨below, top, -, hw, hcap, rfl⟩
  · have := constantValue_range v
    exact ⟨_, List.prefix_rfl, .inr ⟨_, by omega, hcap, rfl⟩⟩
  · have := byteValue_range (w.dmem.read (baseOffsetAddress base o).toNat)
    exact ⟨below, hw ▸ List.prefix_append .., .inr ⟨_, by omega, hcap, rfl⟩⟩
  · exact ⟨below, hw ▸ List.prefix_append .., .inl rfl⟩
  · have := signOf_range (sext8 (w.dmem.read top.toNat))
    exact ⟨below, hw ▸ List.prefix_append .., .inr ⟨_, by omega, hcap, rfl⟩⟩

section ExecutePart
variable {p : Params} {i : Instr} {w w' : Work} (h : executePart p i w = .ok w')
include h

theorem executePart_stackInRange (hw : ∀ v ∈ w.stack, -1 ≤ v ∧ v ≤ 2 ^ 32 - 1) :
    ∀ v ∈ w'.stack, -1 ≤ v ∧ v ≤ 2 ^ 32 - 1 := by
  obtain ⟨below, hbelow, e | ⟨v, hv, -, e⟩⟩ := executePart_ok_stack h
  · exact fun u hu => hw u (hbelow.subset (e ▸ hu))
  · intro u hu
    rw [e, List.mem_append, List.mem_singleton] at hu
    rcases hu with hu | rfl
    · exact hw u (hbelow.subset hu)
    · exact hv

theorem executePart_withinCapacity {k : Nat} (hk : p.stackCapacity = some k) (hw : w.stack.length ≤ k) :
    w'.stack.length ≤ k := by
  obtain ⟨below, hbelow, e | ⟨v, -, hroom, e⟩⟩ := executePart_ok_stack h
  · exact e ▸ hbelow.length_le.trans hw
  · have hne : below.length ≠ k := fun heq => hroom (heq ▸ hk)
    have := hbelow.length_le
    rw [e, List.length_append, List.length_singleton]
    omega

theorem executePart_dmem_wf (hw : w.dmem.wf) : w'.dmem.wf := by
  obtain e | ⟨a, v, -, -, e⟩ := executePart_ok_dmem h <;> rw [e]
  · exact hw
  · exact write_wf hw _ _

theorem executePart_dmem_inBounds (hw : ∀ c ∈ w.dmem, c.1 < p.dataMemSize) : ∀ c ∈ w'.dmem, c.1 < p.dataMemSize := by
  obtain e | ⟨a, v, -, hlt, e⟩ := executePart_ok_dmem h <;> rw [e]
  · exact hw
  · intro c hc
    rcases mem_write hc with hc | rfl
    · exact hw c hc
    · exact hlt

end ExecutePart

theorem State.Active.ne_faulted {s : State} (h : s.Active) : s.status ≠ .faulted := by
  rcases h with h | h <;> simp [h]

theorem statusAt_halted_iff {l p : Nat} : statusAt l p = .halted ↔ p = l := by
  simp [statusAt]

theorem statusAt_running_iff {l p : Nat} : statusAt l p = .running ↔ p ≠ l := by
  simp [statusAt]

namespace State.Inv

variable {s : State} (hinv : s.Inv) (hactive : s.Active)
include hinv

theorem err_of_ne_faulted (hne : s.status ≠ .faulted) : s.err = none := by
  have := hinv.errExactlyAtFault
  rwa [if_neg hne] at this

include hactive

theorem haltAtEnd (hend : s.code.length ≤ s.ip) : s.haltAtEnd.Inv := by
  have hne := hactive.ne_faulted
  exact {
    ipInCode := hinv.ipInCode
    dmemCanonical := hinv.dmemCanonical
    dmemInBounds := hinv.dmemInBounds
    stackInRange := fun _ => hinv.stackInRange hne
    withinCapacity := fun _ => hinv.withinCapacity hne
    countLeIp := hinv.countLeIp
    atReady := nofun
    atRunning := nofun
    atHalted := fun _ => hinv.ipInCode.antisymm hend
    errExactlyAtFault := hinv.err_of_ne_faulted hne }

theorem complete {i : Instr} {w : Work} (hle : s.ip + i.size ≤ s.code.length)
    (hw : executePart s.params i s.work = .ok w) : (s.complete i.size w).Inv := by
  have hne := hactive.ne_faulted
  have := size_pos i
  have := hinv.countLeIp
  exact {
    ipInCode := hle
    dmemCanonical := executePart_dmem_wf hw hinv.dmemCanonical
    dmemInBounds := executePart_dmem_inBounds hw hinv.dmemInBounds
    stackInRange := fun _ => executePart_stackInRange hw (hinv.stackInRange hne)
    withinCapacity := fun _ k hk => executePart_withinCapacity hw hk (hinv.withinCapacity hne k hk)
    countLeIp := by simp only [complete_count, complete_ip]; omega
    atReady := fun h => (statusAt_ne_ready _ _ h).elim
    atRunning := fun h => ⟨Nat.succ_pos _, hle.lt_of_ne (statusAt_running_iff.1 h)⟩
    atHalted := statusAt_halted_iff.1
    errExactlyAtFault := by
      rw [if_neg (complete_status_ne_faulted s i.size w)]
      exact hinv.err_of_ne_faulted hne }

omit hactive

theorem takeError (kind : ErrorKind) : (s.takeError kind).Inv where
  ipInCode := hinv.ipInCode
  dmemCanonical := hinv.dmemCanonical
  dmemInBounds := hinv.dmemInBounds
  stackInRange hne := (hne rfl).elim
  withinCapacity hne := (hne rfl).elim
  countLeIp := hinv.countLeIp
  atReady := nofun
  atRunning := nofun
  atHalted := nofun
  errExactlyAtFault := ⟨kind, rfl⟩

end State.Inv

/-- Settles O35: one lemma for each thing a step can do: the halt, a completion and an error. -/
theorem everyStepKeepsTheInvariant : Obligations.EveryStepKeepsTheInvariant := by
  intro s t hinv h
  have hactive := not_ended_of_step h
  rcases next_outcome h with ⟨hend, rfl⟩ | ⟨-, i, w, -, hle, hw, rfl⟩ | ⟨-, kind, -, rfl⟩
  · exact hinv.haltAtEnd hactive hend
  · exact hinv.complete hactive hle hw
  · exact hinv.takeError kind

end Sys2Proof.Machine

/-! PROOFS. Runs (R136, R137, R218): every run ends, what the host gets from it, and what a limit can cut. -/

namespace Sys2Proof.Machine

/-! ### Active and ended states -/

theorem active_or_ended (s : State) : s.Active ∨ s.ended = true := by
  cases h : s.status <;> simp [State.Active, State.ended, h]

theorem State.Active.ended_eq_false {s : State} (h : s.Active) : s.ended = false := by
  rcases h with h | h <;> simp [State.ended, h]

theorem halted_or_faulted_of_ended {s : State} (h : s.ended = true) : s.status = .halted ∨ s.status = .faulted := by
  cases hs : s.status <;> simp [State.ended, hs] at h ⊢

/-- A completion that does not reach the end of the program leaves the run active. -/
theorem complete_active_or_at_end (s : State) (n : Nat) (w : Work) :
    (s.ip + n ≠ s.code.length ∧ (s.complete n w).Active) ∨ (s.ip + n = s.code.length ∧ (s.complete n w).ended = true) := by
  by_cases h : s.ip + n = s.code.length
  · exact .inr ⟨h, by simp [State.ended, statusAt_halted_iff.2 h]⟩
  · exact .inl ⟨h, .inr (statusAt_running_iff.2 h)⟩

/-! ### Every run ends -/

/-- Settles O36: by induction on the bytes left, of which every completed instruction takes at least one. -/
theorem everyRunEnds : Obligations.EveryRunEnds := by
  intro s hactive
  induction hleft : s.code.length - s.ip using Nat.strong_induction_on generalizing s with
  | _ left ih =>
    subst hleft
    have ends_in_one {t : State} (h : step s = .next t) (ht : t.ended = true) :
        ∃ k t, 1 ≤ k ∧ k ≤ max 1 (s.code.length - s.ip) ∧ steps k s = some t ∧ t.ended = true :=
      ⟨1, t, le_rfl, le_max_left .., steps_succ_of_next h 0, ht⟩
    rcases step_outcome hactive with ⟨-, e⟩ | ⟨hlt, i, w, -, hle, -, e⟩ | ⟨-, kind, -, e⟩
    · exact ends_in_one e rfl
    · obtain ⟨hne, hrunning⟩ | ⟨-, hended⟩ := complete_active_or_at_end s i.size w
      · have := size_pos i
        obtain ⟨k, t, -, hk, hsteps, hended⟩ :=
          ih _ (by simp only [complete_code, complete_ip]; omega) _ hrunning rfl
        simp only [complete_code, complete_ip] at hk
        exact ⟨k + 1, t, by omega, by omega, (steps_succ_of_next e k).trans hsteps, hended⟩
      · exact ends_in_one e hended
    · exact ends_in_one e rfl

/-! ### The state a run ends in -/

theorem steps_code {k : Nat} {s t : State} (h : steps k s = some t) : t.code = s.code :=
  steps_invariant (P := fun u => u.code = s.code) (fun _ _ hu hstep => (step_code hstep).trans hu) rfl h

theorem steps_params {k : Nat} {s t : State} (h : steps k s = some t) : t.params = s.params :=
  steps_invariant (P := fun u => u.params = s.params) (fun _ _ hu hstep => (step_params hstep).trans hu) rfl h

theorem inv_of_steps {k : Nat} {code : List Byte} {p : Params} {t : State} (h : steps k (State.construct code p) = some t) :
    t.Inv :=
  steps_invariant everyStepKeepsTheInvariant (inv_construct code p) h

theorem steps_succ_of_ended {s : State} (h : s.ended = true) (k : Nat) : steps (k + 1) s = none := by
  rw [Option.eq_none_iff_forall_ne_some]
  intro t ht
  obtain ⟨u, hu, -⟩ := steps_succ_some ht
  exact step_ended (halted_or_faulted_of_ended h) u hu

/-- A run has one end. -/
theorem eq_of_steps_ended {k l : Nat} {s t u : State} (ht : steps k s = some t) (hu : steps l s = some u)
    (htended : t.ended = true) (huended : u.ended = true) : t = u := by
  induction k generalizing l s with
  | zero =>
    cases ht
    cases l with
    | zero => cases hu; rfl
    | succ l => rw [steps_succ_of_ended htended] at hu; cases hu
  | succ k ih =>
    cases l with
    | zero => cases hu; rw [steps_succ_of_ended huended] at ht; cases ht
    | succ l =>
      obtain ⟨v, hv, ht⟩ := steps_succ_some ht
      rw [steps_succ_of_next hv] at hu
      exact ih ht hu

/-! ### Results -/

@[simp] theorem result_of_halted {s : State} (h : s.status = .halted) :
    s.result = .halted s.stack (s.dmem.bytesFrom 0 s.params.dataMemSize) s.count := by
  simp only [State.result, h]

@[simp] theorem result_of_faulted {s : State} {r : ErrorRecord} (h : s.status = .faulted) (hr : s.err = some r) :
    s.result = .faulted r.kind r.offset r.count := by
  simp only [State.result, h, hr]

theorem result_of_active {s : State} (h : s.Active) : s.result = .limitReached := by
  rcases h with h | h <;> simp only [State.result, h]

/-- An ended state shows the outputs of a halted run, or the record that the invariant gives a faulted one. -/
theorem result_of_ended {s : State} (hinv : s.Inv) (h : s.ended = true) :
    (s.status = .halted ∧ s.result = .halted s.stack (s.dmem.bytesFrom 0 s.params.dataMemSize) s.count) ∨
    (s.status = .faulted ∧ ∃ r, s.err = some r ∧ s.result = .faulted r.kind r.offset r.count) := by
  refine (halted_or_faulted_of_ended h).imp (fun hs => ⟨hs, result_of_halted hs⟩) (fun hs => ⟨hs, ?_⟩)
  have herr := hinv.errExactlyAtFault
  rw [if_pos hs] at herr
  obtain ⟨kind, hr⟩ := herr
  exact ⟨_, hr, result_of_faulted hs hr⟩

theorem result_ne_limitReached {s : State} (hinv : s.Inv) (h : s.ended = true) : s.result ≠ .limitReached := by
  rcases result_of_ended hinv h with ⟨-, e⟩ | ⟨-, r, -, e⟩ <;> simp [e]

/-- Settles O42: `State.result`, and the bytes of the cells from 0 to `N`. -/
theorem endedRunShowsItsOutputs : Obligations.EndedRunShowsItsOutputs := by
  refine fun s => ⟨fun h => ⟨_, result_of_halted h, bytesFrom_length .., fun a ha => ?_⟩, fun r => result_of_faulted⟩
  rw [bytesFrom_get _ _ ha, Nat.zero_add]

/-- Settles O43: `inspect` checks the range, and answers as many cells as it holds. -/
theorem inspectionIsInclusiveAndChecked : Obligations.InspectionIsInclusiveAndChecked := by
  refine ⟨fun s first last hs => ⟨fun hvalid => ?valid, fun hinvalid => ?invalid⟩, fun s first last hs => ?refused⟩
  case valid =>
    refine ⟨s.dmem.bytesFrom first.toNat (last - first + 1).toNat, by simp only [inspect, hs, if_pos hvalid], ?_, ?_⟩
    · rw [bytesFrom_length]
      omega
    · intro k hk
      rw [bytesFrom_length] at hk
      exact bytesFrom_get _ _ hk
  case invalid => simp only [inspect, hs, if_neg hinvalid]
  case refused => cases h : s.status <;> simp_all [inspect]

/-! ### Limited runs (R218) -/

section RunTo
variable {s t : State}

theorem runTo_succ_of_next (h : step s = .next t) (limit : Nat) : runTo (limit + 1) s = runTo limit t := by
  rw [runTo, h]

/-- At the limit, the step that finds no instruction is taken as well. -/
theorem runTo_zero_at_end (h : s.Active) (hend : s.code.length ≤ s.ip) : runTo 0 s = s.haltAtEnd := by
  simp [runTo, h.ended_eq_false, hend]

theorem runTo_zero_of_lt (hlt : s.ip < s.code.length) : runTo 0 s = s := by
  simp [runTo, hlt]

/-- A limit of at least as many as the steps taken lets a run reach its end. -/
theorem runTo_of_steps_ended {k limit : Nat} (h : steps k s = some t) (ht : t.ended = true) (hk : k ≤ limit) :
    runTo limit s = t := by
  induction k generalizing s limit with
  | zero => cases h; exact runTo_of_ended ht limit
  | succ k ih =>
    obtain ⟨u, hu, h⟩ := steps_succ_some h
    obtain ⟨limit, rfl⟩ : ∃ l, limit = l + 1 := ⟨limit - 1, by omega⟩
    rw [runTo_succ_of_next hu, ih h (by omega)]

/-- A run that still has bytes left after `limit` steps is cut there. -/
theorem runTo_of_steps_lt {limit : Nat} (h : steps limit s = some t) (hlt : t.ip < t.code.length) : runTo limit s = t := by
  induction limit generalizing s with
  | zero => cases h; exact runTo_zero_of_lt hlt
  | succ limit ih =>
    obtain ⟨u, hu, h⟩ := steps_succ_some h
    rw [runTo_succ_of_next hu, ih h]

/-- A limit of at least the bytes left never cuts a run. -/
theorem exists_end_of_active (h : s.Active) :
    ∃ k t, steps k s = some t ∧ t.ended = true ∧ ∀ limit, s.code.length - s.ip ≤ limit → runTo limit s = t := by
  by_cases hend : s.code.length ≤ s.ip
  · rcases step_outcome h with ⟨-, e⟩ | ⟨hlt, -⟩ | ⟨hlt, -⟩
    · refine ⟨1, _, steps_succ_of_next e 0, rfl, fun limit _ => ?_⟩
      cases limit with
      | zero => exact runTo_zero_at_end h hend
      | succ limit => rw [runTo_succ_of_next e, runTo_of_ended rfl]
    · omega
    · omega
  · obtain ⟨k, t, -, hk, hsteps, hended⟩ := everyRunEnds s h
    exact ⟨k, t, hsteps, hended, fun limit hl => runTo_of_steps_ended hsteps hended (by omega)⟩

/-- A limited run stops at the run's end, or after `limit` completed instructions with bytes left. -/
theorem runTo_outcome (limit : Nat) (s : State) :
    (∃ k, steps k s = some (runTo limit s) ∧ (runTo limit s).ended = true) ∨
    (∃ t, steps limit s = some t ∧ runTo limit s = t ∧ t.Active ∧ t.count = s.count + limit ∧ t.ip < t.code.length) := by
  induction limit generalizing s with
  | zero =>
    rcases active_or_ended s with hactive | hended
    · by_cases hlt : s.ip < s.code.length
      · exact .inr ⟨s, rfl, runTo_zero_of_lt hlt, hactive, rfl, hlt⟩
      · obtain ⟨k, t, hsteps, hended, hrun⟩ := exists_end_of_active hactive
        rw [hrun 0 (by omega)]
        exact .inl ⟨k, hsteps, hended⟩
    · rw [runTo_of_ended hended]
      exact .inl ⟨0, rfl, hended⟩
  | succ limit ih =>
    rcases active_or_ended s with hactive | hended
    · have ended_next {u : State} (hu : step s = .next u) (hended : u.ended = true) :
          ∃ k, steps k s = some (runTo (limit + 1) s) ∧ (runTo (limit + 1) s).ended = true := by
        rw [runTo_succ_of_next hu, runTo_of_ended hended]
        exact ⟨1, steps_succ_of_next hu 0, hended⟩
      rcases step_outcome hactive with ⟨-, e⟩ | ⟨-, i, w, -, -, -, e⟩ | ⟨-, kind, -, e⟩
      · exact .inl (ended_next e rfl)
      · rw [runTo_succ_of_next e, steps_succ_of_next e]
        rcases ih (s.complete i.size w) with ⟨k, hk, hended⟩ | ⟨t, ht, hrun, hactive', hcount, hlt⟩
        · exact .inl ⟨k + 1, (steps_succ_of_next e k).trans hk, hended⟩
        · exact .inr ⟨t, ht, hrun, hactive', by rw [hcount, complete_count]; omega, hlt⟩
      · exact .inl (ended_next e rfl)
    · rw [runTo_of_ended hended]
      exact .inl ⟨0, rfl, hended⟩

end RunTo

theorem construct_active (code : List Byte) (p : Params) : (State.construct code p).Active := .inl rfl

/-- The run of a program: the state its steps end in, which every limit of at least `L` reaches. -/
theorem exists_end_of_run (code : List Byte) (p : Params) :
    ∃ k t, steps k (State.construct code p) = some t ∧ t.ended = true ∧ run code p = t.result ∧
      ∀ limit, code.length ≤ limit → runLimited limit code p = t.result := by
  obtain ⟨k, t, hsteps, hended, hrun⟩ := exists_end_of_active (construct_active code p)
  have hlimited (limit : Nat) (hl : code.length ≤ limit) : runLimited limit code p = t.result :=
    congrArg State.result (hrun limit hl)
  exact ⟨k, t, hsteps, hended, hlimited _ le_rfl, hlimited⟩

/-- The run of a program is the result of any ended state that its steps reach. -/
theorem run_eq_result {code : List Byte} {p : Params} {k : Nat} {t : State} (h : steps k (State.construct code p) = some t)
    (ht : t.ended = true) : run code p = t.result := by
  obtain ⟨l, u, hu, huended, hrun, -⟩ := exists_end_of_run code p
  rw [hrun, eq_of_steps_ended h hu ht huended]

/-- Settles O41: a limit of at least `L` reaches the end that `run` reaches, and an ended state's result is no cut. -/
theorem limitOfProgramLengthNeverFires : Obligations.LimitOfProgramLengthNeverFires := by
  intro limit code p hl
  obtain ⟨k, t, hsteps, hended, hrun, hlimited⟩ := exists_end_of_run code p
  rw [hlimited limit hl, hrun]
  exact ⟨rfl, result_ne_limitReached (inv_of_steps hsteps) hended⟩

/-- Settles O44: the end of a run meets the invariant, so it shows a halted run's outputs or a faulted one's record. -/
theorem runIsTheResultOfItsSteps : Obligations.RunIsTheResultOfItsSteps := by
  intro code p
  obtain ⟨k, t, hsteps, hended, hrun, -⟩ := exists_end_of_run code p
  have hparams : t.params = p := steps_params hsteps
  have hresult := result_of_ended (inv_of_steps hsteps) hended
  rw [hparams] at hresult
  exact ⟨k, t, hsteps, hended, hrun, hrun ▸ hresult⟩

/-- Settles O45: a limited run stops at the run's one end or is cut with bytes left, and the two exclude each other. -/
theorem limitOnlyCutsRunsShort : Obligations.LimitOnlyCutsRunsShort := by
  intro limit code p
  rcases runTo_outcome limit (State.construct code p) with ⟨k, hk, hended⟩ | ⟨t, ht, hrun, hactive, hcount, hlt⟩
  · have hne : runLimited limit code p ≠ .limitReached := result_ne_limitReached (inv_of_steps hk) hended
    refine ⟨⟨fun h => absurd h hne, ?_⟩, fun _ => (run_eq_result hk hended).symm⟩
    rintro ⟨t, ht, hactive, -, hlt⟩
    rw [runTo_of_steps_lt ht (by rwa [steps_code ht]), hactive.ended_eq_false] at hended
    cases hended
  · have hcut : runLimited limit code p = .limitReached := by rw [runLimited, hrun, result_of_active hactive]
    refine ⟨⟨fun _ => ⟨t, ht, hactive, ?_, ?_⟩, fun _ => hcut⟩, fun h => absurd hcut h⟩
    · simpa using hcount
    · rwa [steps_code ht] at hlt

end Sys2Proof.Machine

/-! PROOFS. Runs along a list of instructions, with a truncated tail or none (R138, R139, R111): where such a run stands after
each step, and how it ends. -/

namespace Sys2Proof.Machine

/-- An error of execution, not of decoding (R138). -/
def ErrorKind.OfExecution (kind : ErrorKind) : Prop := kind ≠ .illegalOpcode ∧ kind ≠ .truncatedInstruction

theorem ofExecution_of_executePart_error {p : Params} {i : Instr} {w : Work} {kind : ErrorKind}
    (h : executePart p i w = .error kind) : kind.OfExecution := by
  rcases executePart_error h with rfl | rfl | rfl <;> simp [ErrorKind.OfExecution]

theorem ErrorKind.OfExecution.cases {kind : ErrorKind} (h : kind.OfExecution) :
    kind = .stackUnderflow ∨ kind = .invalidAddress ∨ kind = .stackOverflow := by
  obtain ⟨hillegal, htruncated⟩ := h
  cases kind <;> simp_all

/-- A run along `is`: `ip` is where the instruction after the counted ones starts, and the run ends at the end of the program,
in an instruction that fails, or in the tail. -/
structure State.Along (is : List Instr) (tail : List Byte) (s : State) : Prop where
  code : s.code = encodeAll is ++ tail
  ip : s.ip = startOffset is s.count
  countLe : s.count ≤ is.length
  atHalted : s.status = .halted → s.count = is.length ∧ tail = []
  atFaulted : s.status = .faulted → ∃ kind, s.err = some ⟨kind, s.ip, s.count⟩ ∧
    (s.count < is.length → kind.OfExecution) ∧ (s.count = is.length → kind = .truncatedInstruction ∧ tail ≠ [])

namespace State.Along

variable {is : List Instr} {tail : List Byte} {s t : State}

theorem construct (is : List Instr) (tail : List Byte) (p : Params) :
    (State.construct (encodeAll is ++ tail) p).Along is tail where
  code := rfl
  ip := rfl
  countLe := Nat.zero_le _
  atHalted := nofun
  atFaulted := nofun

variable (h : s.Along is tail)
include h

/-- Where instructions are left, the next of them is decoded. -/
theorem decode_next (hlt : s.count < is.length) : decode s.code s.ip = .ok is[s.count] is[s.count].size := by
  rw [h.code, h.ip]
  exact decode_startOffset (List.getElem?_eq_getElem hlt) tail

/-- Where none is left, the tail is decoded. -/
theorem decode_tail (heq : s.count = is.length) : decode s.code s.ip = decodeBytes tail := by
  rw [h.code, h.ip, heq, startOffset_length, decode_append_length]

/-- The program ends exactly where no instruction and no tail is left. -/
theorem at_end_iff : s.ip = s.code.length ↔ s.count = is.length ∧ tail = [] := by
  constructor
  · intro hend
    rw [h.code, h.ip] at hend
    obtain ⟨hle, htail⟩ := length_le_of_startOffset_eq hend
    exact ⟨h.countLe.antisymm hle, htail⟩
  · rintro ⟨heq, rfl⟩
    rw [h.ip, h.code, heq, startOffset_length, List.append_nil]

theorem ip_le : s.ip ≤ s.code.length := by
  rw [h.code, h.ip, List.length_append, encodeAll_length_eq_add is s.count, Nat.add_assoc]
  exact Nat.le_add_right ..

theorem haltAtEnd (hend : s.ip = s.code.length) : s.haltAtEnd.Along is tail where
  code := h.code
  ip := h.ip
  countLe := h.countLe
  atHalted _ := h.at_end_iff.1 hend
  atFaulted := nofun

theorem complete (hlt : s.count < is.length) (w : Work) : (s.complete is[s.count].size w).Along is tail := by
  have hip : s.ip + is[s.count].size = startOffset is (s.count + 1) := by
    rw [h.ip, startOffset_succ (List.getElem?_eq_getElem hlt)]
  exact {
    code := h.code
    ip := hip
    countLe := hlt
    atHalted := fun hs => by
      have hend := statusAt_halted_iff.1 hs
      rw [hip, h.code] at hend
      obtain ⟨hle, htail⟩ := length_le_of_startOffset_eq hend
      exact ⟨Nat.le_antisymm hlt hle, htail⟩
    atFaulted := fun hs => (statusAt_ne_faulted _ _ hs).elim }

theorem takeError {kind : ErrorKind} (hexec : s.count < is.length → kind.OfExecution)
    (htail : s.count = is.length → kind = .truncatedInstruction ∧ tail ≠ []) : (s.takeError kind).Along is tail where
  code := h.code
  ip := h.ip
  countLe := h.countLe
  atHalted := nofun
  atFaulted _ := ⟨kind, rfl, hexec, htail⟩

/-- One step along the instructions, or into the tail. -/
theorem step (htrunc : decodeBytes tail = .truncatedInstruction) (hstep : Machine.step s = .next t) : t.Along is tail := by
  have hle := h.countLe
  rcases next_outcome hstep with ⟨hend, rfl⟩ | ⟨hlt, i, w, hd, -, -, rfl⟩ | ⟨hlt, kind, hk, rfl⟩
  · exact h.haltAtEnd (h.ip_le.antisymm hend)
  · rcases hle.lt_or_eq with hcount | hcount
    · rw [h.decode_next hcount] at hd
      cases hd
      exact h.complete hcount w
    · rw [h.decode_tail hcount, htrunc] at hd
      cases hd
  · refine h.takeError (fun hcount => ?_) (fun hcount => ?_)
    · have hd := h.decode_next hcount
      cases hk with
      | execute _ he => exact ofExecution_of_executePart_error he
      | illegalOpcode hd' => rw [hd] at hd'; cases hd'
      | truncatedInstruction hd' => rw [hd] at hd'; cases hd'
    · have hd := (h.decode_tail hcount).trans htrunc
      refine ⟨?_, fun htail => hlt.ne (h.at_end_iff.2 ⟨hcount, htail⟩)⟩
      cases hk with
      | execute hd' he => rw [hd] at hd'; cases hd'
      | illegalOpcode hd' => rw [hd] at hd'; cases hd'
      | truncatedInstruction hd' => rfl

end State.Along

/-- Every state of a run of complete instructions and a truncated tail, or no tail, is along them. -/
theorem along_of_steps {is : List Instr} {tail : List Byte} (htrunc : decodeBytes tail = .truncatedInstruction) {p : Params}
    {k : Nat} {t : State} (h : steps k (State.construct (encodeAll is ++ tail) p) = some t) : t.Along is tail :=
  steps_invariant (fun _ _ hs hstep => hs.step htrunc hstep) (.construct is tail p) h

/-- Settles O37: a well-formed program is its instructions' encodings and no tail, so its runs end in one of them or after the
last. -/
theorem wellFormedRunCountsItsInstructions : Obligations.WellFormedRunCountsItsInstructions := by
  intro code p is k t hcode h
  rw [(programDecodingInvertsConcatenation code is).1 hcode, ← List.append_nil (encodeAll is)] at h
  have halong : t.Along is [] := along_of_steps rfl h
  refine ⟨fun hs => (halong.atHalted hs).1, fun hs => ?_⟩
  obtain ⟨kind, herr, hexec, htail⟩ := halong.atFaulted hs
  have hlt : t.count < is.length := halong.countLe.lt_of_ne fun heq => (htail heq).2 rfl
  rw [halong.ip] at herr
  exact ⟨hlt, kind, herr, hexec hlt⟩

/-- The run of instructions with a truncated tail, or none: it counts them all and halts, or shows where it failed. -/
theorem run_along {is : List Instr} {tail : List Byte} (htrunc : decodeBytes tail = .truncatedInstruction) (p : Params) :
    (tail = [] ∧ ∃ stack dmem, run (encodeAll is ++ tail) p = .halted stack dmem is.length) ∨
    (∃ kind n, run (encodeAll is ++ tail) p = .faulted kind (startOffset is n) n ∧ n ≤ is.length ∧
      (n < is.length → kind.OfExecution) ∧ (n = is.length → kind = .truncatedInstruction ∧ tail ≠ [])) := by
  obtain ⟨k, t, hsteps, hended, hrun, -⟩ := exists_end_of_run (encodeAll is ++ tail) p
  have halong := along_of_steps htrunc hsteps
  rw [hrun]
  rcases halted_or_faulted_of_ended hended with hs | hs
  · obtain ⟨hcount, htail⟩ := halong.atHalted hs
    exact .inl ⟨htail, _, _, hcount ▸ result_of_halted hs⟩
  · obtain ⟨kind, herr, hexec, htail⟩ := halong.atFaulted hs
    exact .inr ⟨kind, t.count, halong.ip ▸ result_of_faulted hs herr, halong.countLe, hexec, htail⟩

/-- Settles O38: what the encoder emits is encodings with no tail, one for each symbolic instruction. -/
theorem encodedProgramNeverFailsToDecode : Obligations.EncodedProgramNeverFailsToDecode := by
  intro policy xs code p h
  obtain ⟨is, rfl, hcarries, -⟩ := exists_carries_of_encodeProgram_ok h
  rw [← hcarries.length_eq, ← List.append_nil (encodeAll is)]
  rcases run_along (tail := []) rfl p with ⟨-, hhalted⟩ | ⟨kind, n, hrun, hle, hexec, htail⟩
  · exact .inl hhalted
  · have hlt : n < is.length := hle.lt_of_ne fun heq => (htail heq).2 rfl
    exact .inr ⟨kind, _, n, hrun, hlt, (hexec hlt).cases⟩

/-- Settles O39: a run with a truncated tail cannot halt, so it fails in an instruction or in the tail. -/
theorem truncatedTailFaultsAtItsStart : Obligations.TruncatedTailFaultsAtItsStart := by
  intro is tail p hne htrunc
  rcases run_along (is := is) htrunc p with ⟨hnil, -⟩ | ⟨kind, n, hrun, hle, hexec, htail⟩
  · exact absurd hnil hne
  · refine ⟨kind, _, n, hrun, hle, fun heq => ⟨(htail heq).1, heq ▸ startOffset_length is⟩, fun hlt => ?_⟩
    obtain ⟨hillegal, htruncated⟩ := hexec hlt
    exact ⟨htruncated, hillegal, rfl⟩

end Sys2Proof.Machine

/-! PROOFS. A launch adds no behaviour (R213): the image's `load` and `write` pairs, run before the program, build the
image from reset, one cell for each pair. -/

namespace Sys2Proof.Machine

/-! ### One cell -/

/-- A write above all listed cells lists one cell more. -/
theorem write_eq_append {m : Memory} {a : Nat} {v : Byte} (hm : ∀ c ∈ m, c.1 < a) (hv : v ≠ 0#8) :
    m.write a v = m ++ [(a, v)] := by
  induction m with
  | nil => simp [Memory.write, hv]
  | cons c m ih =>
    obtain ⟨hc, hm⟩ := List.forall_mem_cons.1 hm
    rw [Memory.write, if_neg hc.not_gt, if_neg hc.ne', ih hm, List.cons_append]

theorem write_take_eq_take_succ {m : Memory} (hwf : m.wf) {k : Nat} (hk : k < m.length) :
    Memory.write (m.take k) m[k].1 m[k].2 = m.take (k + 1) := by
  obtain ⟨hrising, hne⟩ := hwf
  rw [List.take_add_one, List.getElem?_eq_getElem hk, Option.toList_some]
  refine write_eq_append (fun c hc => ?_) (hne _ (List.getElem_mem hk))
  rw [← List.take_append_drop k m, List.drop_eq_getElem_cons hk, List.pairwise_append] at hrising
  obtain ⟨-, -, hbetween⟩ := hrising
  exact hbetween c hc _ List.mem_cons_self

theorem storedByte_constantValue (b : Byte) : storedByte (constantValue (BitVec.ofNat 32 b.toNat)) = b := by
  have := b.isLt
  apply BitVec.eq_of_toNat_eq
  have := storedByte_toNat (constantValue (BitVec.ofNat 32 b.toNat))
  simp only [constantValue, BitVec.toNat_ofNat] at this ⊢
  omega

/-! ### The pairs -/

theorem imagePrefix_cons (c : Host.Cell) (m : Memory) :
    imagePrefix (c :: m) = .load (BitVec.ofNat 32 c.2.toNat) :: .write (BitVec.ofNat 32 c.1) :: imagePrefix m := rfl

theorem imagePrefix_length (m : Memory) : (imagePrefix m).length = 2 * m.length := by
  induction m with
  | nil => rfl
  | cons c m ih =>
    simp only [imagePrefix_cons, List.length_cons, ih]
    omega

/-- The pair of cell `k`. -/
theorem imagePrefix_getElem? {m : Memory} {k : Nat} (hk : k < m.length) :
    (imagePrefix m)[2 * k]? = some (.load (BitVec.ofNat 32 m[k].2.toNat)) ∧
    (imagePrefix m)[2 * k + 1]? = some (.write (BitVec.ofNat 32 m[k].1)) := by
  induction m generalizing k with
  | nil => cases hk
  | cons c m ih =>
    rw [imagePrefix_cons]
    cases k with
    | zero => exact ⟨rfl, rfl⟩
    | succ k => exact ih (Nat.lt_of_succ_lt_succ hk)

/-! ### The run of the pairs -/

/-- On the way along instructions, one whose execute part answers is completed; if more follow, the run stays active. -/
theorem State.Along.step_complete {is : List Instr} {tail : List Byte} {s : State} {i : Instr} {w : Work}
    (h : s.Along is tail) (hactive : s.Active) (hi : is[s.count]? = some i) (hw : executePart s.params i s.work = .ok w) :
    Machine.step s = .next (s.complete i.size w) ∧ (s.complete i.size w).Along is tail ∧
      (s.count + 1 < is.length → (s.complete i.size w).Active) := by
  obtain ⟨hlt, rfl⟩ := List.getElem?_eq_some_iff.1 hi
  have halong := h.complete hlt w
  refine ⟨(step_of_decode_ok hactive (h.decode_next hlt)).trans (exec_of_executePart_ok hw), halong, fun hmore => ?_⟩
  rcases complete_active_or_at_end s is[s.count].size w with ⟨-, hrunning⟩ | ⟨hend, -⟩
  · exact hrunning
  · obtain ⟨hcount, -⟩ := halong.at_end_iff.1 hend
    exact absurd hcount hmore.ne

/-- A run of an image's pairs that has built the first `k` cells. -/
structure State.Built (m : Memory) (code : List Byte) (k : Nat) (s : State) : Prop where
  along : s.Along (imagePrefix m) code
  count : s.count = 2 * k
  stack : s.stack = []
  dmem : s.dmem = m.take k
  err : s.err = none
  active : k < m.length → s.Active

theorem built_construct (m : Memory) (code : List Byte) (p : Params) :
    (State.construct (encodeAll (imagePrefix m) ++ code) p).Built m code 0 where
  along := .construct (imagePrefix m) code p
  count := rfl
  stack := rfl
  dmem := rfl
  err := rfl
  active _ := construct_active ..

/-- A pair builds its cell: the value goes through the stack, where there is room for it, to the cell's address. -/
theorem State.Built.two_steps {m : Memory} {code : List Byte} {k : Nat} {s : State} (h : s.Built m code k) (hwf : m.wf)
    (hk : k < m.length) (hroom : s.params.stackCapacity ≠ some 0) (hN : m[k].1 < s.params.dataMemSize)
    (haddress : m[k].1 < 2 ^ 32) : ∃ t, steps 2 s = some t ∧ t.Built m code (k + 1) := by
  obtain ⟨halong, hcount, hstack, hdmem, herr, hactive⟩ := h
  obtain ⟨hload, hwrite⟩ := imagePrefix_getElem? hk
  have hmore : s.count + 1 < (imagePrefix m).length := by rw [hcount, imagePrefix_length]; omega
  have hword : (BitVec.ofNat 32 m[k].1).toNat = m[k].1 := by rw [BitVec.toNat_ofNat, Nat.mod_eq_of_lt haddress]
  rw [← hcount] at hload hwrite
  obtain ⟨hstep, halong₁, hactive₁⟩ := halong.step_complete (hactive hk) hload
    (executePart_load _ (by rwa [work_stack, hstack]))
  obtain ⟨hstep₂, halong₂, hactive₂⟩ := halong₁.step_complete (hactive₁ hmore) hwrite
    (executePart_write (congrArg (· ++ [_]) hstack) (by rwa [hword]))
  refine ⟨_, (steps_succ_of_next hstep 1).trans (steps_succ_of_next hstep₂ 0), halong₂, ?count, rfl, ?dmem, herr, ?active⟩
  case count => simp only [complete_count]; omega
  case dmem =>
    simp only [complete_dmem, work_dmem, hword, hdmem, storedByte_constantValue]
    exact write_take_eq_take_succ hwf hk
  case active =>
    intro hk'
    refine hactive₂ ?_
    rw [complete_count, imagePrefix_length]
    omega

/-- The pairs build their image cell after cell. -/
theorem exists_built {m : Memory} (code : List Byte) {p : Params} (hwf : m.wf) (hN : ∀ c ∈ m, c.1 < p.dataMemSize)
    (haddress : p.dataMemSize ≤ 2 ^ 32) (hroom : p.stackCapacity ≠ some 0) {k : Nat} (hk : k ≤ m.length) :
    ∃ t, steps (2 * k) (State.construct (encodeAll (imagePrefix m) ++ code) p) = some t ∧ t.Built m code k := by
  induction k with
  | zero => exact ⟨_, rfl, built_construct m code p⟩
  | succ k ih =>
    obtain ⟨s, hs, hbuilt⟩ := ih (by omega)
    have hparams : s.params = p := steps_params hs
    have hcell : m[k].1 < p.dataMemSize := hN _ (List.getElem_mem hk)
    obtain ⟨t, ht, hbuilt⟩ := hbuilt.two_steps hwf hk (by rwa [hparams]) (by rwa [hparams]) (by omega)
    exact ⟨t, (steps_add hs 2).trans ht, hbuilt⟩

/-- Settles O40: the launch's memory is canonical and below `N`, so its pairs build all of it, and their run stands
then at their end. -/
theorem everyImageIsReachedFromReset : Obligations.EveryImageIsReachedFromReset := by
  intro code p image haddress hroom
  obtain ⟨t, ht, halong, hcount, hstack, hdmem, herr, -⟩ :=
    exists_built (m := (State.launch code p image).dmem) code (ofBytes_wf 0 _) (fun _ => launch_dmem_inBounds) haddress
      hroom le_rfl
  refine ⟨t, ht, hstack, by rw [hdmem, List.take_length], ?_, hcount, herr⟩
  rw [halong.ip, hcount, ← imagePrefix_length, startOffset_length]

end Sys2Proof.Machine
